-- ==== Sys2Proof/Word.lean ====
section
/-! DEFINITION. The words of the block: a byte, and the 16-bit length field (00_scope.md R12, R13). -/

namespace Sys2Proof

/-- An unsigned 8-bit value, bit 0 the least significant (R13). -/
abbrev Byte := BitVec 8

/-- The 16-bit length field of the byte commands (R12). -/
abbrev Half := BitVec 16

end Sys2Proof
end

