-- ==== Sys2Proof/Config.lean ====
section
/-! DEFINITION. The parameters of the block, as plain data: the opcode map OPC and the oracle SinkOK
(00_scope.md R8, R10). They are carried in State so that every statement about a state is a statement about
every map and every finite sequence of answers (log 2, log 3). -/

namespace Sys2Proof

/-- The eight command kinds of the Opcode Table, in the table's order (30_encoding.md R66). -/
inductive Kind where
  | setAdBus
  | clockByteOut
  | clockByteIn
  | clockBitOut
  | readStatus
  | disableLoopback
  | sendImmediate
  | setDivisor
deriving DecidableEq, Repr

/-- The parameter OPC: the opcode byte of each kind (00_scope.md R8). -/
structure OpcodeMap where
  setAdBus : Byte
  clockByteOut : Byte
  clockByteIn : Byte
  clockBitOut : Byte
  readStatus : Byte
  disableLoopback : Byte
  sendImmediate : Byte
  setDivisor : Byte
deriving DecidableEq, Repr

/-- OPC(kind) (00_scope.md R8). -/
def OpcodeMap.byte (opc : OpcodeMap) : Kind → Byte
  | .setAdBus => opc.setAdBus
  | .clockByteOut => opc.clockByteOut
  | .clockByteIn => opc.clockByteIn
  | .clockBitOut => opc.clockBitOut
  | .readStatus => opc.readStatus
  | .disableLoopback => opc.disableLoopback
  | .sendImmediate => opc.sendImmediate
  | .setDivisor => opc.setDivisor

/-- The oracle SinkOK from now on (00_scope.md R10): the answers to the next appends and flushes, in the order they
are asked, and the answer to every later one. Every finite run under any oracle is a run under one of these
(log 3; the answers are an input, the model picks none). -/
structure SinkOracle where
  answers : List Bool
  thereafter : Bool
deriving DecidableEq, Repr

end Sys2Proof
end

