-- ==== Sys2Proof/Syntax.lean ====
section
/-! DEFINITION. The commands as they are written (30_encoding.md R65, R86): one constructor per row of
spec/opcode_table.json. A length field is no operand here: its only legal value is 0 (R83), and a nonzero one is a
decode error, so no command carries one (log 16). -/

namespace Sys2Proof

/-- One command with its operand bytes, in the order of R86. -/
inductive Instr where
  /-- `SetAdBus(value=V, dir=D)` (40_pin_commands.md R90). -/
  | setAdBus (v d : Byte)
  /-- `ClockByteOut(B)` (41_clocked_transfers.md R96). -/
  | clockByteOut (b : Byte)
  /-- `ClockByteIn()` (R103). -/
  | clockByteIn
  /-- `ClockBitOut(X)` (R99). -/
  | clockBitOut (x : Byte)
  /-- `ReadStatus()` (42_ignored_commands.md R115). -/
  | readStatus
  /-- `DisableLoopback()` (R116). -/
  | disableLoopback
  /-- `SendImmediate()` (R117). -/
  | sendImmediate
  /-- `SetDivisor(X0, X1)` (R118). -/
  | setDivisor (x0 x1 : Byte)
deriving DecidableEq, Repr

end Sys2Proof
end

