-- ==== Sys2Proof/WellFormed.lean ====
section
/-! DEFINITION. What is well formed. Every operand value of every command is legal (30_encoding.md R82), so the type
Instr needs no check; what can be ill formed is the opcode map (R68), a length field (R83) and a sample byte
(20_memory.md R49). -/

namespace Sys2Proof

/-- The kinds, in the table's order (R66). -/
def Kind.all : List Kind :=
  [.setAdBus, .clockByteOut, .clockByteIn, .clockBitOut, .readStatus, .disableLoopback, .sendImmediate, .setDivisor]

/-- OPC is injective: eight pairwise distinct bytes (30_encoding.md R68). -/
def OpcodeMap.wellFormed (opc : OpcodeMap) : Bool :=
  decide (Kind.all.map opc.byte).Nodup

/-- A 16-bit length field of a byte command is legal: it is 0 (R83). -/
def lengthOk (len : Half) : Bool :=
  len == 0

/-- The 8-bit length field of the bit command is legal: it is 0 (R83, R100). -/
def bitLengthOk (len : Byte) : Bool :=
  len == 0

/-- A sample byte has bits 7:2 zero (20_memory.md R49, R53). -/
def sampleOk (b : Byte) : Bool :=
  b >>> 2 == 0

end Sys2Proof
end

