-- ==== Sys2Proof/Decode.lean ====
section
/-! DEFINITION. The Opcode Table, the stream decoder and an encoder (30_encoding.md R65 to R86). -/

namespace Sys2Proof

/-- The four error conditions (60_exceptions.md R125). The decoder raises the first three. -/
inductive ErrorCode where
  /-- The opcode byte is not in the image of OPC (R126). -/
  | unrecognizedOpcode
  /-- A complete length field is nonzero (R127). -/
  | unsupportedLength
  /-- The buffer ends before an operand (R129). -/
  | truncatedInput
  /-- An append or a flush failed (R130). -/
  | sinkWriteFailure
deriving DecidableEq, Repr

/-- What decoding answers (30_encoding.md R71). -/
inductive Decoded where
  /-- `Ok`: a command; its size is the size of its kind (R79, R80). -/
  | ok (i : Instr)
  /-- `Err(code)`. -/
  | err (code : ErrorCode)
  /-- There is no opcode byte: the precondition `c < N` of R71 does not hold. -/
  | noOpcode
deriving DecidableEq, Repr

/-- The suggested default of OPC (30_encoding.md R67). PRESUMED, unsafe: the source gives no byte value; these are the
family's (log 1). -/
def suggestedOpc : OpcodeMap where
  setAdBus := 0x80
  clockByteOut := 0x11
  clockByteIn := 0x20
  clockBitOut := 0x13
  readStatus := 0x81
  disableLoopback := 0x85
  sendImmediate := 0x87
  setDivisor := 0x86

/-- `Size(kind)` in bytes, the opcode byte included (30_encoding.md R66). -/
def Kind.size : Kind → Nat
  | .setAdBus => 3
  | .clockByteOut => 4
  | .clockByteIn => 3
  | .clockBitOut => 3
  | .readStatus => 1
  | .disableLoopback => 1
  | .sendImmediate => 1
  | .setDivisor => 3

/-- The kind of a command. -/
def Instr.kind : Instr → Kind
  | .setAdBus _ _ => .setAdBus
  | .clockByteOut _ => .clockByteOut
  | .clockByteIn => .clockByteIn
  | .clockBitOut _ => .clockBitOut
  | .readStatus => .readStatus
  | .disableLoopback => .disableLoopback
  | .sendImmediate => .sendImmediate
  | .setDivisor _ _ => .setDivisor

/-- The bytes a command occupies (R79). -/
def Instr.size (i : Instr) : Nat :=
  i.kind.size

/-- `Kind(op)`: the kind with this opcode byte, if any (30_encoding.md R69). -/
def OpcodeMap.kind? (opc : OpcodeMap) (op : Byte) : Option Kind :=
  Kind.all.find? fun k => opc.byte k == op

/-- The 16-bit length field, the byte at the lower offset the less significant (20_memory.md R48). -/
def length16 (lo hi : Byte) : Half :=
  hi ++ lo

/-- Format F_PIN (R73): two mask bytes, checked as one unit (R72). -/
def decodePins : List Byte → Decoded
  | v :: d :: _ => .ok (.setAdBus v d)
  | _ => .err .truncatedInput

/-- Format F_BOUT (R74): the length field as a unit, its value, then the data byte (R132). -/
def decodeByteOut : List Byte → Decoded
  | lo :: hi :: rest =>
    if lengthOk (length16 lo hi) then
      match rest with
      | b :: _ => .ok (.clockByteOut b)
      | [] => .err .truncatedInput
    else .err .unsupportedLength
  | _ => .err .truncatedInput

/-- Format F_BIN (R75). -/
def decodeByteIn : List Byte → Decoded
  | lo :: hi :: _ => if lengthOk (length16 lo hi) then .ok .clockByteIn else .err .unsupportedLength
  | _ => .err .truncatedInput

/-- Format F_BIT (R76): the length byte, its value, then the operand byte (R132). -/
def decodeBitOut : List Byte → Decoded
  | len :: rest =>
    if bitLengthOk len then
      match rest with
      | x :: _ => .ok (.clockBitOut x)
      | [] => .err .truncatedInput
    else .err .unsupportedLength
  | [] => .err .truncatedInput

/-- Format F_SKIP2 (R78): two bytes that must be there and mean nothing. -/
def decodeDivisor : List Byte → Decoded
  | x0 :: x1 :: _ => .ok (.setDivisor x0 x1)
  | _ => .err .truncatedInput

/-- The operands of a command of kind `k`, from the bytes after its opcode byte (R71). -/
def decodeOperands (k : Kind) (operands : List Byte) : Decoded :=
  match k with
  | .setAdBus => decodePins operands
  | .clockByteOut => decodeByteOut operands
  | .clockByteIn => decodeByteIn operands
  | .clockBitOut => decodeBitOut operands
  | .readStatus => .ok .readStatus
  | .disableLoopback => .ok .disableLoopback
  | .sendImmediate => .ok .sendImmediate
  | .setDivisor => decodeDivisor operands

/-- `Decode(buf, c)` on the bytes `buf[c .. N-1]`: it depends on nothing else but OPC (30_encoding.md R71, R84). The
table is consulted once, on the opcode byte (R70). -/
def decode (opc : OpcodeMap) : List Byte → Decoded
  | [] => .noOpcode
  | op :: operands =>
    match opc.kind? op with
    | none => .err .unrecognizedOpcode
    | some k => decodeOperands k operands

/-- The operand bytes of a command (30_encoding.md R65, R86). -/
def Instr.operandBytes : Instr → List Byte
  | .setAdBus v d => [v, d]
  | .clockByteOut b => [0x00, 0x00, b]
  | .clockByteIn => [0x00, 0x00]
  | .clockBitOut x => [0x00, x]
  | .readStatus => []
  | .disableLoopback => []
  | .sendImmediate => []
  | .setDivisor x0 x1 => [x0, x1]

/-- The bytes of a command in stream order (30_encoding.md R65, R86). -/
def encode (opc : OpcodeMap) (i : Instr) : List Byte :=
  opc.byte i.kind :: i.operandBytes

/-- The longest command, in bytes (R66). -/
def longestSize : Nat := 4

/-- The bytes of an opcode-table word: its first `nbits` bits, the first byte in bits 7..0, then zeros up to the longest
command. -/
def tableBytes (nbits w : Nat) : List Byte :=
  (List.range longestSize).map fun j => BitVec.ofNat 8 ((w % 2 ^ nbits) / 2 ^ (8 * j))

/-- The command the decoder reads from an opcode-table word under the suggested OPC, whose bytes the table gives as its
`match` values (R67). -/
def decodeTableWord (nbits w : Nat) : Option Instr :=
  match decode suggestedOpc (tableBytes nbits w) with
  | .ok i => some i
  | .err _ => none
  | .noOpcode => none

end Sys2Proof
end

