-- ==== Sys2Proof/Machine/State.lean ====
section
/-! DEFINITION. The state of the block (10_state.md R20 to R30, R42), the host and platform events it meets
(R31, R41, 60_exceptions.md R141), and the reasons a step stops. -/

namespace Sys2Proof.Machine

/-- What a pin direction bit says: 1 = output, 0 = input (10_state.md R28). -/
inductive Direction where
  | input
  | output
deriving DecidableEq, Repr

/-- One pin descriptor (R27, R28). -/
structure Pin where
  value : Bool
  direction : Direction
deriving DecidableEq, Repr

/-- The kinds of an `Ignored` marker (R27). -/
inductive IgnoredKind where
  | readStatus
  | disableLoopback
  | sendImmediate
  | setDivisor
deriving DecidableEq, Repr

/-- A decoded command: the closed tagged type of the Command Model (R27). -/
inductive Command where
  | setPins (pins : Vector Pin 8)
  | clockByteOut (byte : Byte)
  | clockBitOut (level : Bool)
  | clockByteIn
  | ignored (kind : IgnoredKind)
deriving DecidableEq, Repr

/-- The status register (R23). -/
inductive Status where
  /-- No invocation since process reset. -/
  | idle
  /-- An invocation is in progress. -/
  | busy
  /-- The last invocation ended cleanly. -/
  | done
  /-- The last invocation ended on an error, at the opcode byte's offset. -/
  | error (code : ErrorCode) (offset : Nat)
deriving DecidableEq, Repr

/-- Who moves next (log 5): the block, or an event of the host or the platform (10_state.md R41, R43). -/
inductive Turn where
  /-- The block steps (R33). -/
  | block
  /-- The host presents a whole buffer: `Start(B)` (R31). -/
  | start (buffer : List Byte)
  /-- Process (re)initialization (70_reset_and_hazards.md R150). -/
  | processReset
  /-- A crash inside the block's step, or between steps; `keep` is R60's draw `k` (20_memory.md R60). -/
  | crash (inStep : Bool) (keep : Nat)
  /-- Orderly process end: the final flush (70_reset_and_hazards.md R154). -/
  | close
deriving DecidableEq, Repr

/-- The complete architectural state (R20), and after it the two parameters and the schedule, which are the model's own
fields (log 2, log 3, log 5). -/
structure State where
  /-- The input buffer of the current invocation (R22). -/
  buf : List Byte
  /-- The decode cursor (R21). -/
  cur : Nat
  /-- The status register (R23). -/
  status : Status
  /-- The commands decoded so far in this invocation (R26). -/
  cmdLog : List Command
  /-- The Trace Sink's samples (R24). -/
  sink : List Byte
  /-- The length of the flushed part of the sink, from its front (R25). -/
  durable : Nat
  /-- True after a crash until process reset (R20). -/
  crashed : Bool
  /-- PARAMETER OPC (00_scope.md R8). -/
  opc : OpcodeMap
  /-- INPUT: the answers of SinkOK from now on (00_scope.md R10). -/
  sinkOk : SinkOracle
  /-- INPUT: the schedule of host and platform events; when it is empty the block moves. -/
  turns : List Turn
deriving DecidableEq, Repr

/-- Why the machine stops where the spec gives no move. -/
inductive Fault where
  /-- Raised by the block's turn while `status` is not BUSY (R33, R35, R146). SAFE: the model stops where the block keeps
  its state and waits for the host. -/
  | noStepEnabled
  /-- Raised by every turn but process reset while `crashed` holds (R31, R33, 20_memory.md R60). SAFE: the spec gives no
  such move. -/
  | crashed
  /-- Raised by the block's turn when the cursor is beyond the buffer: a buffer read at an offset that does not exist
  (00_scope.md R14). SAFE: no run reaches such a state (R21). -/
  | readPastBuffer
deriving DecidableEq, Repr

/-- Why the model gives no meaning. -/
inductive Refusal where
  /-- Raised by an arm of exec whose command has no meaning yet. SAFE. No arm raises it. -/
  | notModelled (mnemonic : String)
  /-- Raised by every step under an opcode map that is not injective, which R68 says is refused and has no meaning.
  SAFE. -/
  | opcodeMapNotInjective
  /-- Raised by a `Start` while BUSY, which the host must not issue (10_state.md R32, 70 R155). UNSAFE as the spec says of
  its own rule: a host that violates it is not modelled. -/
  | startWhileBusy
  /-- Raised by a crash whose draw lies outside the bounds of 20_memory.md R60. SAFE: it is no outcome of a crash. -/
  | crashPointOutOfBounds
  /-- Raised by the final flush while BUSY; 70 R154 has it outside BUSY only. SAFE. -/
  | closeWhileBusy
deriving DecidableEq, Repr

/-- The state after process reset, with the parameter and the inputs it is given (R42: no element is left
unspecified). -/
def State.resetWith (opc : OpcodeMap) (sinkOk : SinkOracle) (turns : List Turn) : State where
  buf := []
  cur := 0
  status := .idle
  cmdLog := []
  sink := []
  durable := 0
  crashed := false
  opc := opc
  sinkOk := sinkOk
  turns := turns

/-- The machine right after reset (R42), with the suggested OPC (R67, log 1), the all-success oracle that R10 names
(log 4) and no event scheduled (log 5). -/
def State.reset : State :=
  State.resetWith suggestedOpc { answers := [], thereafter := true } []

end Sys2Proof.Machine
end

