-- ==== Sys2Proof/Machine/Operands.lean ====
section
/-! DEFINITION. The operands of a command as its command value holds them (10_state.md R27 to R29). -/

namespace Sys2Proof.Machine

/-- A direction bit: 1 = output, 0 = input (R28). -/
def directionOf (bit : Bool) : Direction :=
  if bit then .output else .input

/-- The descriptor of pin `i`: bit `i` of each mask (R28, 30_encoding.md R73). The raw value bit is kept for an input
pin too. -/
def pinOf (v d : Byte) (i : Nat) : Pin where
  value := v.getLsbD i
  direction := directionOf (d.getLsbD i)

/-- The eight pin descriptors (R28). -/
def pinsOf (v d : Byte) : Vector Pin 8 :=
  #v[pinOf v d 0, pinOf v d 1, pinOf v d 2, pinOf v d 3, pinOf v d 4, pinOf v d 5, pinOf v d 6, pinOf v d 7]

/-- The level of a bit command: 0xFF is true, every other byte is false (R29). -/
def levelOf (x : Byte) : Bool :=
  x == 0xFF

/-- The command value that decoding answers for a command (30_encoding.md R66, R71). -/
def commandOf : Instr → Command
  | .setAdBus v d => .setPins (pinsOf v d)
  | .clockByteOut b => .clockByteOut b
  | .clockByteIn => .clockByteIn
  | .clockBitOut x => .clockBitOut (levelOf x)
  | .readStatus => .ignored .readStatus
  | .disableLoopback => .ignored .disableLoopback
  | .sendImmediate => .ignored .sendImmediate
  | .setDivisor _ _ => .ignored .setDivisor

end Sys2Proof.Machine
end

