-- ==== Sys2Proof/Machine/Ops.lean ====
section
/-! DEFINITION. The named operations of the block: the sink primitives (20_memory.md R52, R55), raising an error
(60_exceptions.md R128, R130), synthesis (10_state.md R34) and the part of the step that every command shares (R33). -/

namespace Sys2Proof.Machine

/-! ### The oracle SinkOK (00_scope.md R10) -/

/-- Ask SinkOK once: its answer, and the oracle from then on. -/
def askOracle (o : SinkOracle) : Bool × SinkOracle :=
  match o.answers with
  | [] => (o.thereafter, o)
  | a :: rest => (a, { o with answers := rest })

/-- The answer SinkOK gives to the ask that comes after `n` others. -/
def oracleAnswer (o : SinkOracle) (n : Nat) : Bool :=
  (o.answers[n]?).getD o.thereafter

/-- The oracle after `n` asks. -/
def oracleSkip (o : SinkOracle) (n : Nat) : SinkOracle :=
  { o with answers := o.answers.drop n }

/-- The next `n` asks succeed. -/
def oracleGrants (o : SinkOracle) (n : Nat) : Prop :=
  ∀ j, j < n → oracleAnswer o j = true

/-! ### The sink (20_memory.md) -/

/-- `SinkAppend(b)` (R52): whether it succeeded, and the state after it. -/
def sinkAppend (b : Byte) (s : State) : Bool × State :=
  if (askOracle s.sinkOk).1 then
    (true, { s with sink := s.sink ++ [b], sinkOk := (askOracle s.sinkOk).2 })
  else
    (false, { s with sinkOk := (askOracle s.sinkOk).2 })

/-- `SinkFlush()` (R55): whether it succeeded, and the state after it. -/
def sinkFlush (s : State) : Bool × State :=
  if (askOracle s.sinkOk).1 then
    (true, { s with durable := s.sink.length, sinkOk := (askOracle s.sinkOk).2 })
  else
    (false, { s with sinkOk := (askOracle s.sinkOk).2 })

/-- Append samples in order, up to the first failure (R33's loop). -/
def appendAll : List Byte → State → Bool × State
  | [], s => (true, s)
  | b :: rest, s =>
    match sinkAppend b s with
    | (true, s') => appendAll rest s'
    | (false, s') => (false, s')

/-! ### Errors (60_exceptions.md) -/

/-- Raise an error: the status register takes the code and the cursor, which is the offset of the command's opcode byte,
and nothing else changes (R128, R130). There is no handler and no return (R135). -/
def raiseError (code : ErrorCode) (s : State) : State :=
  { s with status := .error code s.cur }

/-! ### Synthesis -/

/-- A sample with data level `dat` and clock level `clk`: bit 0 is CLK, bit 1 is DAT (00_scope.md R18, R49). -/
def sampleOf (dat clk : Bool) : Byte :=
  (BitVec.ofBool dat ++ BitVec.ofBool clk).zeroExtend 8

/-- `EmitBurst(b)`: clock 0, 1, 0 over one data level (41_clocked_transfers.md R95). -/
def emitBurst (b : Bool) : List Byte :=
  [sampleOf b false, sampleOf b true, sampleOf b false]

/-- `Synth(cmd)`, a function of the command alone (10_state.md R34). -/
def synth : Command → List Byte
  | .setPins pins => [sampleOf pins[1].value pins[0].value]
  | .clockByteOut b =>
    emitBurst (b.getLsbD 7) ++ emitBurst (b.getLsbD 6) ++ emitBurst (b.getLsbD 5) ++ emitBurst (b.getLsbD 4)
      ++ emitBurst (b.getLsbD 3) ++ emitBurst (b.getLsbD 2) ++ emitBurst (b.getLsbD 1) ++ emitBurst (b.getLsbD 0)
  | .clockBitOut level => emitBurst level
  | .clockByteIn => []
  | .ignored _ => []

/-! ### The part of the step after decoding (10_state.md R33) -/

/-- Append the decoded command to the log (R26). -/
def logCommand (cmd : Command) (s : State) : State :=
  { s with cmdLog := s.cmdLog ++ [cmd] }

/-- Advance the cursor (30_encoding.md R79). -/
def advance (size : Nat) (s : State) : State :=
  { s with cur := s.cur + size }

/-- Append all the samples, then flush once, then advance; a failed append or flush raises SinkWriteFailure (R33, R56,
R130). -/
def emitSamples (samples : List Byte) (size : Nat) (s : State) : State :=
  match appendAll samples s with
  | (false, s') => raiseError .sinkWriteFailure s'
  | (true, s') =>
    match sinkFlush s' with
    | (false, s'') => raiseError .sinkWriteFailure s''
    | (true, s'') => advance size s''

/-- What the step does with a decoded command of `size` bytes: log it, then emit its samples; a command without samples
neither appends nor flushes, it only advances (R33, R56). -/
def perform (cmd : Command) (size : Nat) (s : State) : State :=
  match synth cmd with
  | [] => advance size (logCommand cmd s)
  | b :: rest => emitSamples (b :: rest) size (logCommand cmd s)

end Sys2Proof.Machine
end

