-- ==== Sys2Proof/Machine/Clocked.lean ====
section
/-! DEFINITION. The clocked transfers (41_clocked_transfers.md). Their length fields are checked by the decoder, before
a command exists (30_encoding.md R71, R83). -/

namespace Sys2Proof.Machine

/-- `ClockByteOut(B)`: 24 samples, most significant bit first, one flush, four bytes (R96, R97). -/
def execClockByteOut (b : Byte) (s : State) : Host.Outcome State Fault Refusal :=
  .next (perform (.clockByteOut b) Kind.clockByteOut.size s)

/-- `ClockByteIn()`: no sample, no flush, no received value, three bytes (R103, R104). -/
def execClockByteIn (s : State) : Host.Outcome State Fault Refusal :=
  .next (perform .clockByteIn Kind.clockByteIn.size s)

/-- `ClockBitOut(X)`: one burst of the level, one flush, three bytes (R99, R101). -/
def execClockBitOut (x : Byte) (s : State) : Host.Outcome State Fault Refusal :=
  .next (perform (.clockBitOut (levelOf x)) Kind.clockBitOut.size s)

end Sys2Proof.Machine
end

