-- ==== Sys2Proof/Machine/Ignored.lean ====
section
/-! DEFINITION. The ignored commands (42_ignored_commands.md): logged, no sample, no flush (R119, R120). -/

namespace Sys2Proof.Machine

/-- `ReadStatus()`: nothing is returned to anyone (R115, 00_scope.md R7). -/
def execReadStatus (s : State) : Host.Outcome State Fault Refusal :=
  .next (perform (.ignored .readStatus) Kind.readStatus.size s)

/-- `DisableLoopback()`: there is no loopback state (R116). -/
def execDisableLoopback (s : State) : Host.Outcome State Fault Refusal :=
  .next (perform (.ignored .disableLoopback) Kind.disableLoopback.size s)

/-- `SendImmediate()`: it neither flushes nor orders (R117, 20_memory.md R61). -/
def execSendImmediate (s : State) : Host.Outcome State Fault Refusal :=
  .next (perform (.ignored .sendImmediate) Kind.sendImmediate.size s)

/-- `SetDivisor(X0, X1)`: both bytes are discarded (R118, 30_encoding.md R78). -/
def execSetDivisor (_x0 _x1 : Byte) (s : State) : Host.Outcome State Fault Refusal :=
  .next (perform (.ignored .setDivisor) Kind.setDivisor.size s)

end Sys2Proof.Machine
end

