-- ==== Sys2Proof/Machine/Pins.lean ====
section
/-! DEFINITION. The pin-set command (40_pin_commands.md). -/

namespace Sys2Proof.Machine

/-- `SetAdBus(value=V, dir=D)`: one `SetPins` command, one sample, one flush, three bytes (R90, R91). -/
def execSetAdBus (v d : Byte) (s : State) : Host.Outcome State Fault Refusal :=
  .next (perform (.setPins (pinsOf v d)) Kind.setAdBus.size s)

end Sys2Proof.Machine
end

