-- ==== Sys2Proof/Machine/Dispatch.lean ====
section
/-! DEFINITION. One arm per command, each a direct call of its meaning. -/

namespace Sys2Proof.Machine

/-- What the step at the cursor does with a decoded command (10_state.md R33). -/
def exec (i : Instr) (s : State) : Host.Outcome State Fault Refusal :=
  match i with
  | .setAdBus v d => Sys2Proof.Machine.execSetAdBus v d s
  | .clockByteOut b => Sys2Proof.Machine.execClockByteOut b s
  | .clockByteIn => Sys2Proof.Machine.execClockByteIn s
  | .clockBitOut x => Sys2Proof.Machine.execClockBitOut x s
  | .readStatus => Sys2Proof.Machine.execReadStatus s
  | .disableLoopback => Sys2Proof.Machine.execDisableLoopback s
  | .sendImmediate => Sys2Proof.Machine.execSendImmediate s
  | .setDivisor x0 x1 => Sys2Proof.Machine.execSetDivisor x0 x1 s

end Sys2Proof.Machine
end

