-- ==== Sys2Proof/Machine/Block.lean ====
section
/-! DEFINITION. The block's own step (10_state.md R33): fetch the bytes at the cursor, decode them, run the command. -/

namespace Sys2Proof.Machine

/-- The bytes `buf[cur .. N-1]` the decoder reads (30_encoding.md R84). -/
def fetchBytes (s : State) : List Byte :=
  s.buf.drop s.cur

/-- The block's step (R33). It is enabled exactly when `status` is BUSY and `crashed` is false; elsewhere the block has
no move, which is a named fault (log 6). -/
def blockStep (s : State) : Host.Outcome State Fault Refusal :=
  if s.crashed then .fault .crashed
  else
    match s.status with
    | .busy =>
      if s.cur = s.buf.length then .next { s with status := .done }
      else
        match decode s.opc (fetchBytes s) with
        | .ok i => exec i s
        | .err code => .next (raiseError code s)
        | .noOpcode => .fault .readPastBuffer
    | .idle => .fault .noStepEnabled
    | .done => .fault .noStepEnabled
    | .error _ _ => .fault .noStepEnabled

/-- The samples of the command at the cursor, if the block's step is enabled and decodes one: R60's list `S` for a crash
inside the step. -/
def samplesInFlight (s : State) : List Byte :=
  match s.status with
  | .busy =>
    match decode s.opc (fetchBytes s) with
    | .ok i => synth (commandOf i)
    | .err _ => []
    | .noOpcode => []
  | .idle => []
  | .done => []
  | .error _ _ => []

end Sys2Proof.Machine
end

