-- ==== Sys2Proof/Machine/Events.lean ====
section
/-! DEFINITION. The moves of the host and the platform (10_state.md R31, R41; 20_memory.md R60; 70_reset_and_hazards.md
R150, R154), and the one function that lets the next mover of the schedule move (log 5). -/

namespace Sys2Proof.Machine

/-- `Start(B)` (10_state.md R31): accepted in IDLE, DONE and ERROR; while BUSY there is no move (R32), after a crash only
process reset has one. -/
def hostStart (buffer : List Byte) (s : State) : Host.Outcome State Fault Refusal :=
  if s.crashed then .fault .crashed
  else
    match s.status with
    | .busy => .refused .startWhileBusy
    | .idle => .next { s with buf := buffer, cur := 0, cmdLog := [], status := .busy }
    | .done => .next { s with buf := buffer, cur := 0, cmdLog := [], status := .busy }
    | .error _ _ => .next { s with buf := buffer, cur := 0, cmdLog := [], status := .busy }

/-- Process reset, in every state (70_reset_and_hazards.md R150): every element takes its value of 10_state.md R42. The
parameter and the inputs stay (log 14). -/
def processReset (s : State) : State :=
  State.resetWith s.opc s.sinkOk s.turns

/-- The sink a crash may leave behind before the draw cuts it: `sink_before ++ S` (20_memory.md R60). -/
def crashTrace (inStep : Bool) (s : State) : List Byte :=
  s.sink ++ (if inStep then samplesInFlight s else [])

/-- A crash that keeps `keep` samples (20_memory.md R60). Everything but the sink, `durable` and `crashed` stays as it was
before the step (log 8). -/
def crash (inStep : Bool) (keep : Nat) (s : State) : Host.Outcome State Fault Refusal :=
  if s.crashed then .fault .crashed
  else if s.durable ≤ keep ∧ keep ≤ (crashTrace inStep s).length then
    .next { s with
      sink := (crashTrace inStep s).take keep
      durable := ((crashTrace inStep s).take keep).length
      crashed := true }
  else .refused .crashPointOutOfBounds

/-- Orderly process end (70_reset_and_hazards.md R154): one flush outside BUSY, whose failure is not reported. -/
def close (s : State) : Host.Outcome State Fault Refusal :=
  if s.crashed then .fault .crashed
  else
    match s.status with
    | .busy => .refused .closeWhileBusy
    | .idle => .next (sinkFlush s).2
    | .done => .next (sinkFlush s).2
    | .error _ _ => .next (sinkFlush s).2

/-- One turn of the schedule. -/
def takeTurn (t : Turn) (s : State) : Host.Outcome State Fault Refusal :=
  match t with
  | .block => blockStep s
  | .start buffer => hostStart buffer s
  | .processReset => .next (processReset s)
  | .crash inStep keep => crash inStep keep s
  | .close => close s

/-- The turn that moves next: the head of the schedule, the block's when it is empty. -/
def nextTurn (s : State) : Turn :=
  s.turns.headD .block

/-- The state with that turn taken off the schedule. -/
def popTurn (s : State) : State :=
  { s with turns := s.turns.tail }

end Sys2Proof.Machine
end

