-- ==== Sys2Proof/Machine/Step.lean ====
section
/-! DEFINITION. One step of the machine, and the state that fetches a given opcode-table word. -/

namespace Sys2Proof.Machine

/-- One step: the next mover of the schedule moves. An opcode map that is not injective is refused and has no meaning
(30_encoding.md R68). -/
def step (s : State) : Host.Outcome State Fault Refusal :=
  if s.opc.wellFormed then takeTurn (nextTurn s) (popTurn s) else .refused .opcodeMapNotInjective

/-- `s` with an invocation begun on the bytes of an opcode-table word, so that the very next step runs it: what `Start`
does (10_state.md R31), under the OPC the table's words are written in (log 13). -/
def State.withFetchWord (s : State) (nbits w : Nat) : State :=
  { s with
    buf := tableBytes nbits w
    cur := 0
    status := .busy
    crashed := false
    opc := suggestedOpc
    turns := [] }

end Sys2Proof.Machine
end

