-- ==== Sys2Proof/Machine/Flags.lean ====
section
/-! DEFINITION. The block has no flags, condition codes or predicates (10_state.md R37). The one coded word the host
reads is the status register; its fields are here (R23, 60_exceptions.md R125). -/

namespace Sys2Proof.Machine

/-- The code number of an error (60_exceptions.md R125). -/
def errorNumber : ErrorCode → Nat
  | .unrecognizedOpcode => 1
  | .unsupportedLength => 2
  | .truncatedInput => 3
  | .sinkWriteFailure => 4

/-- The field `state` of the status register (R23). -/
def statusState : Status → Nat
  | .idle => 0
  | .busy => 1
  | .done => 2
  | .error _ _ => 3

/-- The field `code`, valid only in ERROR (R23). -/
def statusCode : Status → Option Nat
  | .error code _ => some (errorNumber code)
  | .idle | .busy | .done => none

/-- The field `offset`, valid only in ERROR (R23). -/
def statusOffset : Status → Option Nat
  | .error _ offset => some offset
  | .idle | .busy | .done => none

end Sys2Proof.Machine
end

