-- ==== Sys2Proof/Safety.lean ====
section
/-! DEFINITION. What a safe state is: the invariants of the block (10_state.md R21 to R26, 20_memory.md R53,
60_exceptions.md R134), and how one sink follows another (R54). -/

namespace Sys2Proof.Machine

/-- The sink is in form: every sample has bits 7:2 zero (20_memory.md R53) and the flushed part lies inside it (10_state.md
R20). Both byte spaces are lists indexed by offset, so equal spaces are equal data (log 11). -/
def Memory.wf (s : State) : Bool :=
  s.sink.all sampleOk && decide (s.durable ≤ s.sink.length)

/-- The status register fits the cursor and the buffer (10_state.md R23, R42; 60_exceptions.md R128). -/
def statusFits (s : State) : Prop :=
  match s.status with
  | .idle => s.buf = [] ∧ s.cur = 0 ∧ s.cmdLog = []
  | .busy => True
  | .done => s.cur = s.buf.length
  | .error _ offset => offset = s.cur ∧ offset < s.buf.length

/-- The state is legal: the map OPC is injective (R68), the cursor is within the buffer (R21), the sink is in form, the
status register fits, and after a crash everything left in the sink is durable (20_memory.md R60). -/
structure State.Legal (s : State) : Prop where
  opcode : s.opc.wellFormed = true
  cursor : s.cur ≤ s.buf.length
  memory : Memory.wf s = true
  status : statusFits s
  crashed : s.crashed = true → s.durable = s.sink.length

/-- The command the log holds beyond the cursor: the one whose append or flush failed (60_exceptions.md R130). -/
def failedCommand (s : State) : List Instr :=
  match s.status with
  | .error .sinkWriteFailure _ =>
    match decode s.opc (fetchBytes s) with
    | .ok i => [i]
    | .err _ => []
    | .noOpcode => []
  | .idle | .busy | .done | .error .unrecognizedOpcode _ | .error .unsupportedLength _ | .error .truncatedInput _ => []

/-- The log is precise (10_state.md R26, 30_encoding.md R85, 60_exceptions.md R134): the bytes before the cursor are the
encodings of the commands `is`, one after the other, and the log holds exactly their values in that order, and the command
whose append or flush failed, if that is how the invocation ended. -/
def LogIs (s : State) (is : List Instr) : Prop :=
  s.buf.take s.cur = is.flatMap (encode s.opc) ∧
  s.cmdLog = (is ++ failedCommand s).map commandOf

/-- The log of the state is precise. -/
def State.LogPrecise (s : State) : Prop :=
  ∃ is, LogIs s is

/-- The samples of commands, in order (20_memory.md R57). -/
def traceOf (cmds : List Command) : List Byte :=
  cmds.flatMap synth

/-- The whole trace of an invocation that began on the sink `base` (20_memory.md R57, 70_reset_and_hazards.md R157): `base`,
then the samples of the logged commands in order; only a sink-write failure may cut it, and only inside the samples of the
last command. -/
def TraceSince (base : List Byte) (s : State) : Prop :=
  match s.status with
  | .error .sinkWriteFailure _ =>
    ∃ cmds last k, s.cmdLog = cmds ++ [last] ∧ s.sink = base ++ traceOf cmds ++ (synth last).take k
  | .idle | .busy | .done | .error .unrecognizedOpcode _ | .error .unsupportedLength _ | .error .truncatedInput _ =>
    s.sink = base ++ traceOf s.cmdLog

/-- The block's step is the next move, and it is enabled (10_state.md R33). -/
structure BlockEnabled (s : State) : Prop where
  opcode : s.opc.wellFormed = true
  turn : nextTurn s = .block
  busy : s.status = .busy
  alive : s.crashed = false

/-- Only the block moves from now on, and every ask of SinkOK succeeds: an undisturbed invocation in progress. -/
structure Undisturbed (s : State) : Prop where
  enabled : BlockEnabled s
  turns : s.turns = []
  granted : ∀ n, oracleAnswer s.sinkOk n = true

/-- An operand byte that a command of this kind needs at the cursor is missing (30_encoding.md R72, per the error lists of
40_pin_commands.md R90, 41_clocked_transfers.md R96, R99, R103 and 42_ignored_commands.md R118). -/
def operandMissing (s : State) : Kind → Prop
  | .setAdBus | .clockByteIn | .setDivisor => s.cur + 3 > s.buf.length
  | .clockByteOut =>
    s.cur + 3 > s.buf.length ∨
      (s.buf[s.cur + 1]? = some 0 ∧ s.buf[s.cur + 2]? = some 0 ∧ s.cur + 4 > s.buf.length)
  | .clockBitOut =>
    s.cur + 2 > s.buf.length ∨ (s.buf[s.cur + 1]? = some 0 ∧ s.cur + 3 > s.buf.length)
  | .readStatus | .disableLoopback | .sendImmediate => False

/-- The length field of a command of this kind at the cursor is complete and nonzero (60_exceptions.md R127). -/
def lengthNonzero (s : State) : Kind → Prop
  | .clockByteOut | .clockByteIn =>
    ∃ lo hi, s.buf[s.cur + 1]? = some lo ∧ s.buf[s.cur + 2]? = some hi ∧ ¬(lo = 0 ∧ hi = 0)
  | .clockBitOut => ∃ len, s.buf[s.cur + 1]? = some len ∧ len ≠ 0
  | .setAdBus | .readStatus | .disableLoopback | .sendImmediate | .setDivisor => False

/-- The next step raises this error (60_exceptions.md R125): it makes the status ERROR with this code. -/
def Raises (s : State) (code : ErrorCode) : Prop :=
  ∃ t offset, step s = .next t ∧ t.status = .error code offset

/-- The three commands that produce samples (20_memory.md R56). -/
def emits : Kind → Bool
  | .setAdBus | .clockByteOut | .clockBitOut => true
  | .clockByteIn | .readStatus | .disableLoopback | .sendImmediate | .setDivisor => false

/-- `k` steps, up to the first fault or refusal. -/
def stepN : Nat → State → Host.Outcome State Fault Refusal
  | 0, s => .next s
  | k + 1, s =>
    match step s with
    | .next t => stepN k t
    | .fault r => .fault r
    | .refused r => .refused r

/-- The block has nothing left to do for this invocation (70_reset_and_hazards.md R161). -/
def Ended (s : State) : Prop :=
  s.status = .done ∨ ∃ code offset, s.status = .error code offset

end Sys2Proof.Machine
end

