-- ==== Sys2Proof/Certificates/Slice0/Obligations.lean ====
section
/-! DEFINITION. The statements for the provers. A statement marked 'the spec's decision Dn' rests on a choice the spec
marks as its own (92_eei_decisions.md); log 15 gathers them. -/

open Sys2Proof Sys2Proof.Machine

/-! ### Encoding -/

/-- Words written out bit by bit from the table's encodings, under the suggested OPC, decode to the commands they stand
for (30_encoding.md R65, R67; opcode_table.json). The opcode bytes are PRESUMED (log 1). -/
def Obligations.DecodeSampleWords : Prop :=
  decode suggestedOpc [0b10000000, 0b00000010, 0b00000011] = .ok (.setAdBus 2 3) ∧
  decode suggestedOpc [0b00010001, 0b00000000, 0b00000000, 0b01010101] = .ok (.clockByteOut 0x55) ∧
  decode suggestedOpc [0b00100000, 0b00000000, 0b00000000] = .ok .clockByteIn ∧
  decode suggestedOpc [0b00010011, 0b00000000, 0b11111111] = .ok (.clockBitOut 0xFF) ∧
  decode suggestedOpc [0b10000001] = .ok .readStatus ∧
  decode suggestedOpc [0b10000101] = .ok .disableLoopback ∧
  decode suggestedOpc [0b10000111] = .ok .sendImmediate ∧
  decode suggestedOpc [0b10000110, 0b00010010, 0b00110100] = .ok (.setDivisor 0x12 0x34)

/-- 30_encoding.md R69: `Kind(op)` is the unique kind with that opcode byte, or none if no kind has it, under every
injective map. -/
def Obligations.KindLookup : Prop :=
  ∀ (opc : OpcodeMap) (op : Byte), opc.wellFormed = true →
    (∀ k, opc.kind? op = some k ↔ opc.byte k = op) ∧ (opc.kind? op = none ↔ ∀ k, opc.byte k ≠ op)

/-- Under every injective map, decoding the encoding of a command, whatever bytes follow it, gives the command back
(30_encoding.md, R65, R71, R86). -/
def Obligations.DecodeEncode : Prop :=
  ∀ (opc : OpcodeMap) (i : Instr) (rest : List Byte), opc.wellFormed = true →
    decode opc (encode opc i ++ rest) = .ok i

/-- Whatever decodes to a command begins with that command's encoding, so each byte string has one meaning
(30_encoding.md, R71, R79, R85). -/
def Obligations.EncodeDecode : Prop :=
  ∀ (opc : OpcodeMap) (bytes : List Byte) (i : Instr), decode opc bytes = .ok i →
    ∃ rest, bytes = encode opc i ++ rest

/-- The injective maps are the ones the step does not refuse; a map that takes two kinds to one byte is refused in
every state (30_encoding.md, R68). That the refusal meets every step, whoever moves, and no other step meets it, is
the model's reading (log 10). -/
def Obligations.OpcodeMapInjective : Prop :=
  ∀ s : State,
    ((∃ k k', k ≠ k' ∧ s.opc.byte k = s.opc.byte k') → step s = .refused .opcodeMapNotInjective) ∧
    ((∀ k k', s.opc.byte k = s.opc.byte k' → k = k') → step s ≠ .refused .opcodeMapNotInjective)

/-- The opcode-table word stored by withFetchWord is the command the next step runs, in every state (log 13). -/
def Obligations.FetchWordRuns : Prop :=
  ∀ (s : State) (nbits w : Nat) (i : Instr), decodeTableWord nbits w = some i →
    step (s.withFetchWord nbits w) = exec i (s.withFetchWord nbits w)

/-! ### The commands: what each does when the sink answers success -/

/-- The sample of SetAdBus is bit 0 of the value mask as the clock and bit 1 as the data, `V & 3` (40_pin_commands.md,
R91); with the append and the flush granted the command completes: logged, appended, flushed, advanced (10_state.md,
R33; 20_memory.md, R52, R55; the spec's decisions D3, D11 and D25). That the sink's answers are an input list of the
state is the model's choice (log 3). -/
def Obligations.SetAdBusCompletes : Prop :=
  (∀ pins : Vector Pin 8, synth (.setPins pins) =
    [(BitVec.ofBool pins[1].value ++ BitVec.ofBool pins[0].value).zeroExtend 8]) ∧
  ∀ (v d : Byte) (s : State), oracleGrants s.sinkOk 2 →
    exec (.setAdBus v d) s = .next { s with
      cmdLog := s.cmdLog ++ [.setPins (pinsOf v d)]
      sink := s.sink ++ [v &&& 3]
      durable := s.sink.length + 1
      cur := s.cur + 3
      sinkOk := oracleSkip s.sinkOk 2 }

/-- 30_encoding.md R73: pin i of the logged command takes bit i of each mask, in the order value then direction, for all
masks; and every pair of operand bytes is a command. -/
def Obligations.SetAdBusPins : Prop :=
  (∀ (opc : OpcodeMap) (v d : Byte) (rest : List Byte), opc.wellFormed = true →
    decode opc (opc.setAdBus :: v :: d :: rest) = .ok (.setAdBus v d)) ∧
  ∀ (v d : Byte) (s t : State), exec (.setAdBus v d) s = .next t →
    ∃ pins : Vector Pin 8, t.cmdLog = s.cmdLog ++ [.setPins pins] ∧
      ∀ (i : Nat) (h : i < 8), pins[i].value = v.getLsbD i ∧ (pins[i].direction = .output ↔ d.getLsbD i = true)

/-- 40_pin_commands.md R92: the direction mask reaches neither the sink nor the status: two directions give the same
outcome but for the logged descriptors. -/
def Obligations.SetAdBusDirectionInformative : Prop :=
  ∀ (v d d' : Byte) (s : State), ∃ t t', exec (.setAdBus v d) s = .next t ∧ exec (.setAdBus v d') s = .next t' ∧
    t' = { t with cmdLog := t'.cmdLog }

/-- 40_pin_commands.md R93: pins 2 to 7 are stored in the command and no sample carries them: value masks that agree on
bits 0 and 1 leave the same sink, and every sample of the command has bits 7:2 zero. -/
def Obligations.SetAdBusHighPinsUntraced : Prop :=
  ∀ (v v' d : Byte) (s t t' : State), v.getLsbD 0 = v'.getLsbD 0 → v.getLsbD 1 = v'.getLsbD 1 →
    exec (.setAdBus v d) s = .next t → exec (.setAdBus v' d) s = .next t' →
    t.sink = t'.sink ∧
    (∃ pins : Vector Pin 8, t.cmdLog = s.cmdLog ++ [.setPins pins] ∧
      ∀ (i : Nat) (h : i < 8), 2 ≤ i → pins[i].value = v.getLsbD i) ∧
    ∀ (a : Nat) (x : Byte), s.sink.length ≤ a → t.sink[a]? = some x → ∀ j, 2 ≤ j → x.getLsbD j = false

/-- With the 24 appends and the flush granted, ClockByteOut completes and its samples are the bursts of bits 7 down to
0, a burst being 02 03 02 for a one and 00 01 00 for a zero (41_clocked_transfers.md, R95, R97; 10_state.md, R33;
20_memory.md, R52, R55; the spec's decisions D3, D11 and D25). That the sink's answers are an input list of the state
is the model's choice (log 3). -/
def Obligations.ClockByteOutCompletes : Prop :=
  ∀ (b : Byte) (s : State), oracleGrants s.sinkOk 25 →
    exec (.clockByteOut b) s = .next { s with
      cmdLog := s.cmdLog ++ [.clockByteOut b]
      sink := s.sink ++ (List.range 8).flatMap fun i =>
        if b.getLsbD (7 - i) then [0x02, 0x03, 0x02] else [0x00, 0x01, 0x00]
      durable := s.sink.length + 24
      cur := s.cur + 4
      sinkOk := oracleSkip s.sinkOk 25 }

/-- The samples of ClockByteOut by index, an inference the spec marks as its own (41_clocked_transfers.md, R98): the
data bit of samples 3i, 3i+1 and 3i+2 is bit 7-i of the byte, the clock bit is 0, 1, 0. That the sink's answers are an
input list of the state is the model's choice (log 3). -/
def Obligations.ClockByteOutSampleIndex : Prop :=
  ∀ (b : Byte) (s : State), oracleGrants s.sinkOk 25 → ∃ t, exec (.clockByteOut b) s = .next t ∧
    t.sink.length = s.sink.length + 24 ∧
    ∀ i, i < 8 → ∀ j, j < 3 → ∃ x, t.sink[s.sink.length + 3 * i + j]? = some x ∧
      x.getLsbD 1 = b.getLsbD (7 - i) ∧ x.getLsbD 0 = decide (j = 1)

/-- The level is true for 0xFF and false for every other operand, and with the three appends and the flush granted
ClockBitOut completes with the burst of the level (10_state.md, R29, R33; 41_clocked_transfers.md, R101; 20_memory.md,
R52, R55; the spec's decisions D3, D11 and D25). That the sink's answers are an input list of the state is the model's
choice (log 3). -/
def Obligations.ClockBitOutCompletes : Prop :=
  (∀ level, synth (.clockBitOut level) = if level then [0x02, 0x03, 0x02] else [0x00, 0x01, 0x00]) ∧
  ∀ (x : Byte) (s : State), oracleGrants s.sinkOk 4 →
    exec (.clockBitOut x) s = .next { s with
      cmdLog := s.cmdLog ++ [.clockBitOut (decide (x = 0xFF))]
      sink := s.sink ++ if x = 0xFF then [0x02, 0x03, 0x02] else [0x00, 0x01, 0x00]
      durable := s.sink.length + 3
      cur := s.cur + 3
      sinkOk := oracleSkip s.sinkOk 4 }

/-- 41_clocked_transfers.md R104: ClockByteIn completes in every state; no sample, no flush, no received value: only the
log and the cursor change. -/
def Obligations.ClockByteInCompletes : Prop :=
  synth .clockByteIn = [] ∧
  ∀ s : State, exec .clockByteIn s = .next { s with cmdLog := s.cmdLog ++ [.clockByteIn], cur := s.cur + 3 }

/-- 42_ignored_commands.md R119: the four ignored commands complete in every state, and neither append nor flush: only the
log and the cursor change. -/
def Obligations.IgnoredComplete : Prop :=
  (∀ kind, synth (.ignored kind) = []) ∧
  ∀ s : State,
    exec .readStatus s = .next { s with cmdLog := s.cmdLog ++ [.ignored .readStatus], cur := s.cur + 1 } ∧
    exec .disableLoopback s = .next { s with cmdLog := s.cmdLog ++ [.ignored .disableLoopback], cur := s.cur + 1 } ∧
    exec .sendImmediate s = .next { s with cmdLog := s.cmdLog ++ [.ignored .sendImmediate], cur := s.cur + 1 } ∧
    ∀ x0 x1, exec (.setDivisor x0 x1) s =
      .next { s with cmdLog := s.cmdLog ++ [.ignored .setDivisor], cur := s.cur + 3 }

/-- The divisor bytes affect nothing and are never read as opcodes (42_ignored_commands.md, R118): in an enabled state
whose cursor is at a SetDivisor, replacing both operand bytes replaces them in the buffer after the step and changes
nothing else. -/
def Obligations.SetDivisorDiscards : Prop :=
  ∀ (s : State) (before rest : List Byte) (x0 x1 y0 y1 : Byte), BlockEnabled s →
    s.cur = before.length → s.buf = before ++ [s.opc.setDivisor, x0, x1] ++ rest →
    ∃ t, step s = .next t ∧ t.cur = s.cur + 3 ∧ t.cmdLog = s.cmdLog ++ [.ignored .setDivisor] ∧
      step { s with buf := before ++ [s.opc.setDivisor, y0, y1] ++ rest } =
        .next { t with buf := before ++ [s.opc.setDivisor, y0, y1] ++ rest }

/-! ### The commands: what a sink-write failure does -/

/-- When append j is the first ask that fails, the command stays in the log, the first j samples stay in the sink,
durable and cur are unchanged and the status is the error at the cursor; every command that emits, every j
(60_exceptions.md, R130, R132; the spec's decisions D5, D11 and D24). That the sink's answers are an input list of the
state is the model's choice (log 3). -/
def Obligations.AppendFailureKeepsEarlierSamples : Prop :=
  ∀ (i : Instr) (s : State) (j : Nat), j < (synth (commandOf i)).length →
    oracleGrants s.sinkOk j → oracleAnswer s.sinkOk j = false →
    exec i s = .next { s with
      cmdLog := s.cmdLog ++ [commandOf i]
      sink := s.sink ++ (synth (commandOf i)).take j
      status := .error .sinkWriteFailure s.cur
      sinkOk := oracleSkip s.sinkOk (j + 1) }

/-- When every append succeeds and the flush fails, all the samples stay, durable and cur are unchanged and the status
is the error at the cursor (60_exceptions.md, R130; 20_memory.md, R55; the spec's decisions D5, D11, D24 and D25).
That the sink's answers are an input list of the state is the model's choice (log 3). -/
def Obligations.FlushFailureIsSinkWriteFailure : Prop :=
  ∀ (i : Instr) (s : State), emits i.kind = true →
    oracleGrants s.sinkOk (synth (commandOf i)).length →
    oracleAnswer s.sinkOk (synth (commandOf i)).length = false →
    exec i s = .next { s with
      cmdLog := s.cmdLog ++ [commandOf i]
      sink := s.sink ++ synth (commandOf i)
      status := .error .sinkWriteFailure s.cur
      sinkOk := oracleSkip s.sinkOk ((synth (commandOf i)).length + 1) }

/-! ### Frames -/

/-- What every command leaves unchanged (10_state.md, R36, R38, R39): the buffer, crashed, OPC and the schedule; every
sample that was in the sink, and nothing beyond the command's own samples, which start at the old end of the sink; the log
grows by the command alone; the cursor moves by the command's size or stays; the status changes only to a sink-write
failure. -/
def Obligations.CommandFrame : Prop :=
  ∀ (i : Instr) (s t : State), exec i s = .next t →
    t.buf = s.buf ∧ t.crashed = s.crashed ∧ t.opc = s.opc ∧ t.turns = s.turns ∧
    t.cmdLog = s.cmdLog ++ [commandOf i] ∧
    (∀ a, a < s.sink.length → t.sink[a]? = s.sink[a]?) ∧
    (∀ a, s.sink.length + (synth (commandOf i)).length ≤ a → t.sink[a]? = none) ∧
    ((t.status = s.status ∧ t.cur = s.cur + i.size) ∨
      (t.status = .error .sinkWriteFailure s.cur ∧ t.cur = s.cur ∧ t.durable = s.durable))

/-- SetAdBus, ClockByteOut and ClockBitOut flush once, after the last sample, and never partway; the other commands
never flush (20_memory.md, R56). A command whose append or flush fails leaves durable as it was (60_exceptions.md,
R130; the spec's decisions D11 and D25). The asks of the oracle are counted: one per sample and one for the flush.
That the sink's answers are an input list of the state is the model's choice (log 3). -/
def Obligations.FlushDiscipline : Prop :=
  ∀ (i : Instr) (s t : State), exec i s = .next t →
    (emits i.kind = true →
      (t.durable = t.sink.length ∧ t.sink = s.sink ++ synth (commandOf i) ∧
        t.sinkOk = oracleSkip s.sinkOk ((synth (commandOf i)).length + 1)) ∨
      (t.durable = s.durable ∧ t.status = .error .sinkWriteFailure s.cur)) ∧
    (emits i.kind = false → t.durable = s.durable ∧ t.sink = s.sink ∧ t.sinkOk = s.sinkOk)

/-! ### The block's step -/

/-- A step runs the decoded command: when the block's step is enabled and the bytes at the cursor decode to i, step is exec
of i on the state with its turn taken off the schedule, and nothing else is added (10_state.md, R33; the spec's decision
D3). -/
def Obligations.StepRunsDecoded : Prop :=
  ∀ (s : State) (i : Instr), BlockEnabled s → decode s.opc (s.buf.drop s.cur) = .ok i →
    step s = exec i { s with turns := s.turns.tail }

/-- At the end of the buffer the block's step makes the status DONE and changes nothing else (10_state.md, R33; the spec's
decisions D3 and D17). -/
def Obligations.EndOfBufferIsDone : Prop :=
  ∀ s : State, BlockEnabled s → s.cur = s.buf.length →
    step s = .next { s with status := .done, turns := s.turns.tail }

/-- Entry into a decode error: the status takes the code and the opcode offset; the log, the sink, durable, the cursor and
the oracle are unchanged (60_exceptions.md, R128; the spec's decisions D5 and D24). -/
def Obligations.DecodeErrorEntry : Prop :=
  ∀ (s : State) (code : ErrorCode), BlockEnabled s → decode s.opc (s.buf.drop s.cur) = .err code →
    step s = .next { s with status := .error code s.cur, turns := s.turns.tail }

/-- 60_exceptions.md R126: an opcode byte that no kind has raises UnrecognizedOpcode, whatever bytes follow, and nothing
else raises it. -/
def Obligations.UnrecognizedOpcodeRaised : Prop :=
  ∀ (s : State) (op : Byte), BlockEnabled s → s.buf[s.cur]? = some op →
    ((∀ k, s.opc.byte k ≠ op) ↔ Raises s .unrecognizedOpcode)

/-- 60_exceptions.md R127: UnsupportedLength is raised exactly when the length field of ClockByteOut, ClockByteIn or
ClockBitOut is complete and nonzero, the data byte present or not. -/
def Obligations.UnsupportedLengthRaised : Prop :=
  ∀ (s : State) (k : Kind), BlockEnabled s → s.buf[s.cur]? = some (s.opc.byte k) →
    (lengthNonzero s k ↔ Raises s .unsupportedLength)

/-- TruncatedInput is raised exactly when an operand the command needs would be read past the end of the buffer; an opcode byte
never causes it (60_exceptions.md, R129; the spec's decisions D8 and D9). -/
def Obligations.TruncatedInputRaised : Prop :=
  (∀ (s : State) (k : Kind), BlockEnabled s → s.buf[s.cur]? = some (s.opc.byte k) →
    (operandMissing s k ↔ Raises s .truncatedInput)) ∧
  ∀ s : State, BlockEnabled s → Raises s .truncatedInput →
    ∃ k, s.buf[s.cur]? = some (s.opc.byte k) ∧ operandMissing s k

/-- The priority of the checks in one step (60_exceptions.md, R132; the spec's decision D8), as one outcome: no kind, then
the first operands, then the length, then the data byte, then the command. -/
def Obligations.ErrorPriority : Prop :=
  ∀ (opc : OpcodeMap) (op : Byte) (operands : List Byte), opc.wellFormed = true →
    decode opc (op :: operands) =
      if op = opc.setAdBus then
        if h : 2 ≤ operands.length then .ok (.setAdBus operands[0] operands[1]) else .err .truncatedInput
      else if op = opc.clockByteOut then
        if h : 2 ≤ operands.length then
          if operands[0] ≠ 0 ∨ operands[1] ≠ 0 then .err .unsupportedLength
          else if h' : 3 ≤ operands.length then .ok (.clockByteOut operands[2]) else .err .truncatedInput
        else .err .truncatedInput
      else if op = opc.clockByteIn then
        if h : 2 ≤ operands.length then
          if operands[0] ≠ 0 ∨ operands[1] ≠ 0 then .err .unsupportedLength else .ok .clockByteIn
        else .err .truncatedInput
      else if op = opc.clockBitOut then
        if h : 1 ≤ operands.length then
          if operands[0] ≠ 0 then .err .unsupportedLength
          else if h' : 2 ≤ operands.length then .ok (.clockBitOut operands[1]) else .err .truncatedInput
        else .err .truncatedInput
      else if op = opc.readStatus then .ok .readStatus
      else if op = opc.disableLoopback then .ok .disableLoopback
      else if op = opc.sendImmediate then .ok .sendImmediate
      else if op = opc.setDivisor then
        if h : 2 ≤ operands.length then .ok (.setDivisor operands[0] operands[1]) else .err .truncatedInput
      else .err .unrecognizedOpcode

/-- DONE, ERROR and IDLE have no step, and after a crash only process reset has a move (10_state.md, R33, R35;
60_exceptions.md, R136; 20_memory.md, R60). That the model writes 'no move' as these faults is its DESIGN CHOICE (log 6). -/
def Obligations.NoMoveOutsideBusy : Prop :=
  ∀ s : State, s.opc.wellFormed = true →
    (s.crashed = false → nextTurn s = .block → s.status ≠ .busy → step s = .fault .noStepEnabled) ∧
    (s.crashed = true → nextTurn s ≠ .processReset → step s = .fault .crashed)

/-- A step of the block that leaves the invocation running has run one command at the cursor and moved the cursor past it,
forward and within the buffer (30_encoding.md, R79, R80, R88; 10_state.md, R21). -/
def Obligations.CursorMovesForward : Prop :=
  ∀ s t : State, BlockEnabled s → step s = .next t → t.status = .busy →
    ∃ i, decode s.opc (s.buf.drop s.cur) = .ok i ∧ t.cur = s.cur + i.size ∧ s.cur < t.cur ∧ t.cur ≤ t.buf.length

/-- Decoding and running a command depend only on the bytes from the cursor on, on OPC and on the answers to come
(10_state.md, R37, R39; 30_encoding.md, R84): two enabled states that agree on these take the same step, whatever their
logs, sinks and earlier bytes. -/
def Obligations.StepDependsOnRemainingBytes : Prop :=
  ∀ s s' t : State, BlockEnabled s → BlockEnabled s' →
    s.cur ≤ s.buf.length → s'.cur ≤ s'.buf.length → s.buf.drop s.cur = s'.buf.drop s'.cur →
    s.opc = s'.opc → s.sinkOk = s'.sinkOk → step s = .next t →
    ∃ t' cmds samples, step s' = .next t' ∧
      t.cmdLog = s.cmdLog ++ cmds ∧ t'.cmdLog = s'.cmdLog ++ cmds ∧
      t.sink = s.sink ++ samples ∧ t'.sink = s'.sink ++ samples ∧
      t.buf.drop t.cur = t'.buf.drop t'.cur ∧ t.sinkOk = t'.sinkOk ∧
      statusState t.status = statusState t'.status ∧ statusCode t.status = statusCode t'.status

/-! ### The host and the platform -/

/-- Start(B) is accepted in IDLE, DONE and ERROR when there was no crash, and sets the buffer, the cursor, the log and
the status (10_state.md, R31; 70_reset_and_hazards.md, R151; the spec's decision D13); while BUSY it has no move (R32;
the spec's decision D10). That no move is written as a refusal, and that events come from a schedule in the state, is
the model's choice (log 7, log 5). -/
def Obligations.StartBeginsInvocation : Prop :=
  ∀ (s : State) (buffer : List Byte), s.opc.wellFormed = true → nextTurn s = .start buffer → s.crashed = false →
    (s.status ≠ .busy →
      step s = .next { s with buf := buffer, cur := 0, cmdLog := [], status := .busy, turns := s.turns.tail }) ∧
    (s.status = .busy → step s = .refused .startWhileBusy)

/-- Process reset has a move in every state, BUSY and crashed ones too, and every element takes its reset value
(10_state.md, R42; 70_reset_and_hazards.md, R150; the spec's decisions D27 and D28). That OPC, the oracle and the schedule
go on is the model's choice (log 14). -/
def Obligations.ProcessResetEverywhere : Prop :=
  ∀ s : State, s.opc.wellFormed = true → nextTurn s = .processReset → ∃ t, step s = .next t ∧
    t.buf = [] ∧ t.cur = 0 ∧ t.status = .idle ∧ t.cmdLog = [] ∧ t.sink = [] ∧ t.durable = 0 ∧ t.crashed = false ∧
    t.opc = s.opc ∧ t.sinkOk = s.sinkOk ∧ t.turns = s.turns.tail

/-- The machine right after reset holds the values of 10_state.md R42 (the spec's decision D27). The parameter and the inputs
beside them are the model's choice (log 1, 4, 5) and are not part of this statement. -/
def Obligations.ResetValues : Prop :=
  State.reset.buf = [] ∧ State.reset.cur = 0 ∧ State.reset.status = .idle ∧ State.reset.cmdLog = [] ∧
  State.reset.sink = [] ∧ State.reset.durable = 0 ∧ State.reset.crashed = false

/-- A crash inside the step of a decoded command keeps exactly a front part of the old sink followed by the samples of
the command in flight, any part within the bounds (20_memory.md, R60; the spec's decision D12). That a draw outside
the bounds is refused by name is the model's choice (log 9), and that everything else keeps its value is the model's
reading (log 8). -/
def Obligations.CrashInsideStep : Prop :=
  ∀ (s : State) (i : Instr) (keep : Nat), s.opc.wellFormed = true → nextTurn s = .crash true keep →
    s.crashed = false → s.status = .busy → decode s.opc (s.buf.drop s.cur) = .ok i →
    (s.durable ≤ keep ∧ keep ≤ s.sink.length + (synth (commandOf i)).length →
      step s = .next { s with
        sink := (s.sink ++ synth (commandOf i)).take keep
        durable := keep
        crashed := true
        turns := s.turns.tail }) ∧
    (¬(s.durable ≤ keep ∧ keep ≤ s.sink.length + (synth (commandOf i)).length) →
      step s = .refused .crashPointOutOfBounds)

/-- A crash between steps, or inside a step that has no samples, keeps a front part of the old sink no shorter than the
durable part, any such part (20_memory.md, R60; the spec's decision D12). A step has no samples exactly when it is not a
step of the running invocation, or it ends the invocation, raises a decode error or runs a command that emits nothing. That
a draw outside the bounds is refused by name is the model's choice (log 9), and that everything else keeps its value is the
model's reading (log 8). -/
def Obligations.CrashBetweenSteps : Prop :=
  (∀ (s : State) (inStep : Bool) (keep : Nat), s.opc.wellFormed = true → nextTurn s = .crash inStep keep →
    s.crashed = false → (inStep = false ∨ samplesInFlight s = []) →
    (s.durable ≤ keep ∧ keep ≤ s.sink.length →
      step s = .next { s with
        sink := s.sink.take keep, durable := keep, crashed := true, turns := s.turns.tail }) ∧
    (¬(s.durable ≤ keep ∧ keep ≤ s.sink.length) → step s = .refused .crashPointOutOfBounds)) ∧
  ∀ s : State, samplesInFlight s = [] ↔
    s.status ≠ .busy ∨ s.buf.length ≤ s.cur ∨ (∃ code, decode s.opc (s.buf.drop s.cur) = .err code) ∨
      ∃ i, decode s.opc (s.buf.drop s.cur) = .ok i ∧ emits i.kind = false

/-- Orderly process end is one flush outside BUSY, its failure not reported (70_reset_and_hazards.md, R154; the spec's
decision D29). That it is a turn of the schedule, leaves no closed mark and is refused by name while BUSY is the
model's choice (log 17), and so is the input list of the sink's answers (log 3). -/
def Obligations.CloseFlushes : Prop :=
  ∀ s : State, s.opc.wellFormed = true → nextTurn s = .close → s.crashed = false →
    (s.status ≠ .busy → oracleAnswer s.sinkOk 0 = true →
      step s = .next { s with
        durable := s.sink.length, sinkOk := oracleSkip s.sinkOk 1, turns := s.turns.tail }) ∧
    (s.status ≠ .busy → oracleAnswer s.sinkOk 0 = false →
      step s = .next { s with sinkOk := oracleSkip s.sinkOk 1, turns := s.turns.tail }) ∧
    (s.status = .busy → step s = .refused .closeWhileBusy)

/-- A buffer whose first byte no kind has: Start and one step of the block give ERROR(UnrecognizedOpcode, 0), no
command and no new sample (60_exceptions.md, R147, an inference the spec marks as its own; 10_state.md, R31). That the
Start comes from a schedule in the state is the model's choice (log 5). -/
def Obligations.UnknownFirstByte : Prop :=
  ∀ (s : State) (op : Byte) (rest : List Byte), s.opc.wellFormed = true → s.crashed = false → s.status ≠ .busy →
    s.turns = [.start (op :: rest)] → (∀ k, s.opc.byte k ≠ op) →
    ∃ t, stepN 2 s = .next t ∧ t.status = .error .unrecognizedOpcode 0 ∧ t.cmdLog = [] ∧ t.sink = s.sink ∧
      t.durable = s.durable

/-- The status register's fields: 0 to 3 for the state; in ERROR the code, 1 UnrecognizedOpcode, 2 UnsupportedLength, 3
TruncatedInput, 4 SinkWriteFailure, and the offset; neither of the two outside ERROR (10_state.md, R23; 60_exceptions.md,
R125; the spec's decision D4). So no two statuses have the same fields. -/
def Obligations.StatusRegisterFields : Prop :=
  statusState .idle = 0 ∧ statusState .busy = 1 ∧ statusState .done = 2 ∧
  (∀ code offset, statusState (.error code offset) = 3 ∧ statusOffset (.error code offset) = some offset) ∧
  (∀ offset, statusCode (.error .unrecognizedOpcode offset) = some 1 ∧
    statusCode (.error .unsupportedLength offset) = some 2 ∧
    statusCode (.error .truncatedInput offset) = some 3 ∧
    statusCode (.error .sinkWriteFailure offset) = some 4) ∧
  (statusCode .idle = none ∧ statusCode .busy = none ∧ statusCode .done = none) ∧
  (statusOffset .idle = none ∧ statusOffset .busy = none ∧ statusOffset .done = none) ∧
  ∀ a b : Status, statusState a = statusState b → statusCode a = statusCode b → statusOffset a = statusOffset b → a = b

/-! ### Rules of the whole machine -/

/-- No step removes, overwrites or reorders a sample; only process reset empties the sink, and only a crash cuts it
(20_memory.md, R54), to a front part of the old sink and the samples in flight (R60; the spec's decision D12). That
the events come from a schedule in the state is the model's choice (log 5). -/
def Obligations.SinkAppendOnly : Prop :=
  ∀ s t : State, step s = .next t →
    (nextTurn s = .processReset → t.sink = []) ∧
    (∀ inStep keep, nextTurn s = .crash inStep keep → ∃ l, t.sink = (s.sink ++ l).take keep ∧
      (l = [] ∨ inStep = true ∧ ∃ i, decode s.opc (s.buf.drop s.cur) = .ok i ∧ l = synth (commandOf i))) ∧
    (nextTurn s ≠ .processReset → (∀ inStep keep, nextTurn s ≠ .crash inStep keep) → s.sink <+: t.sink)

/-- What has been flushed is never lost: only process reset shortens the durable part of the sink, or changes a sample
of it; crashes and errors do not (20_memory.md, R60; 10_state.md, R25; 70_reset_and_hazards.md, R158; the spec's
decision D12). -/
def Obligations.DurableNeverLost : Prop :=
  ∀ s t : State, s.Legal → step s = .next t → nextTurn s ≠ .processReset →
    s.durable ≤ t.durable ∧ t.sink.take s.durable = s.sink.take s.durable

/-- The buffer is written only by Start and process reset (10_state.md, R22, R42; 70_reset_and_hazards.md, R150); that
a crash leaves it is the model's reading (log 8). OPC is written by nothing: within one process R153 fixes it, and
that it is carried in the state and goes on across a process reset is the model's choice (log 2, log 14). -/
def Obligations.BufferAndMapConstant : Prop :=
  ∀ s t : State, step s = .next t →
    t.opc = s.opc ∧
    ((∀ buffer, nextTurn s ≠ .start buffer) → nextTurn s ≠ .processReset → t.buf = s.buf)

/-- No error undoes anything: while an invocation runs, a step of the block retracts no logged command, no sample and no
flush (60_exceptions.md, R131; 10_state.md, R26). -/
def Obligations.NothingRetracted : Prop :=
  ∀ s t : State, s.Legal → nextTurn s = .block → step s = .next t →
    s.cmdLog <+: t.cmdLog ∧ s.sink <+: t.sink ∧ s.durable ≤ t.durable

/-! ### Invariants -/

/-- Every step, of the block, the host or the platform, keeps the state legal (10_state.md, R21 to R25; 20_memory.md,
R53, R60). It rests on the model's reading of what a crash leaves (log 8) and on the model's choice that OPC goes on
across a process reset (log 2, log 14). -/
def Obligations.StepKeepsLegal : Prop :=
  ∀ s t : State, s.Legal → step s = .next t → t.Legal

/-- The state after reset is legal, under every injective map, oracle and schedule (10_state.md, R42); the machine's
own reset state is, under the PRESUMED map (log 1). -/
def Obligations.ResetLegal : Prop :=
  State.reset.Legal ∧
  ∀ (opc : OpcodeMap) (sinkOk : SinkOracle) (turns : List Turn), opc.wellFormed = true →
    (State.resetWith opc sinkOk turns).Legal

/-- Errors are precise and the log is the parse of the buffer (60_exceptions.md, R134; 30_encoding.md, R85;
10_state.md, R26): in a legal state, every step keeps the log precise. For a crash inside a step it rests on the
model's reading that the log, the cursor and the status stay as they were before the step (log 8). -/
def Obligations.StepKeepsLogPrecise : Prop :=
  ∀ s t : State, s.Legal → s.LogPrecise → step s = .next t → t.LogPrecise

/-- The log is precise after reset. -/
def Obligations.ResetLogPrecise : Prop :=
  State.reset.LogPrecise

/-- The sink is the trace of the invocation: from its Start on, a step of the block or the final flush keeps the sink equal to
what it was at the Start followed by the samples of the logged commands in order, cut only by a sink-write failure
(20_memory.md, R57, R58; 70_reset_and_hazards.md, R157). -/
def Obligations.StepKeepsTrace : Prop :=
  (∀ (base : List Byte) (s t : State), TraceSince base s → nextTurn s = .block ∨ nextTurn s = .close →
    step s = .next t → TraceSince base t) ∧
  ∀ (s t : State) (buffer : List Byte), nextTurn s = .start buffer → step s = .next t → TraceSince s.sink t

/-! ### Whole invocations -/

/-- Termination: an invocation left to the block ends within the number of bytes left plus one steps, whatever the sink
answers (70_reset_and_hazards.md, R162). -/
def Obligations.InvocationEnds : Prop :=
  ∀ s : State, BlockEnabled s → s.turns = [] → s.cur ≤ s.buf.length →
    ∃ k t, k ≤ s.buf.length - s.cur + 1 ∧ stepN k s = .next t ∧ Ended t

/-- An undisturbed invocation on the encodings of any commands ends in DONE after one step per command and one more, with
exactly these commands logged and their samples in the sink (30_encoding.md, R85; 10_state.md, R33, R34; 20_memory.md,
R57). -/
def Obligations.CleanInvocation : Prop :=
  ∀ (s : State) (is : List Instr), Undisturbed s → s.cur = 0 → s.cmdLog = [] →
    s.buf = is.flatMap (encode s.opc) →
    ∃ t, stepN (is.length + 1) s = .next t ∧ t.status = .done ∧ t.cur = s.buf.length ∧
      t.cmdLog = is.map commandOf ∧ t.sink = s.sink ++ traceOf (is.map commandOf) ∧
      (is.any (fun i => emits i.kind) = true → t.durable = t.sink.length) ∧
      (is.any (fun i => emits i.kind) = false → t.durable = s.durable)

/-- A buffer decodes cleanly exactly when it is a concatenation of valid encodings (30_encoding.md, R85, an inference the spec
marks as its own). -/
def Obligations.CleanExactlyConcatenations : Prop :=
  ∀ s : State, Undisturbed s → s.cur = 0 →
    ((∃ k t, stepN k s = .next t ∧ t.status = .done) ↔ ∃ is : List Instr, s.buf = is.flatMap (encode s.opc))

/-- A valid buffer without its last byte, the last command having an operand, ends in TruncatedInput at that command, the
commands and samples before it kept (60_exceptions.md, R129; 90_conflicts.md, C6). -/
def Obligations.TruncationIsReported : Prop :=
  ∀ (s : State) (is : List Instr) (i : Instr), Undisturbed s → s.cur = 0 → s.cmdLog = [] → 1 < i.size →
    s.buf = is.flatMap (encode s.opc) ++ (encode s.opc i).dropLast →
    ∃ t, stepN (is.length + 1) s = .next t ∧
      t.status = .error .truncatedInput (is.flatMap (encode s.opc)).length ∧
      t.cmdLog = is.map commandOf ∧ t.sink = s.sink ++ traceOf (is.map commandOf)
end

