-- ==== Sys2Proof/Laws/Decode.lean ====
section
/-! SUPPORT. The small facts of the Opcode Table and of the length fields. -/

namespace Sys2Proof

/-- Every kind is in the table. -/
theorem Kind.mem_all (k : Kind) : k ∈ Kind.all := by
  cases k <;> simp [Kind.all]

/-- Under an injective map two kinds with one opcode byte are one kind. -/
theorem OpcodeMap.byte_injective {opc : OpcodeMap} (h : opc.wellFormed = true) {k k' : Kind}
    (e : opc.byte k = opc.byte k') : k = k' := by
  rw [OpcodeMap.wellFormed, decide_eq_true_eq] at h
  exact List.inj_on_of_nodup_map h (Kind.mem_all k) (Kind.mem_all k') e

/-- A map is well formed exactly when no two kinds share a byte. -/
theorem OpcodeMap.wellFormed_iff (opc : OpcodeMap) :
    opc.wellFormed = true ↔ ∀ k k', opc.byte k = opc.byte k' → k = k' := by
  refine ⟨fun h _ _ => OpcodeMap.byte_injective h, fun h => ?_⟩
  rw [OpcodeMap.wellFormed, decide_eq_true_eq]
  exact List.Nodup.map (fun _ _ => h _ _) (by decide)

/-- A 16-bit length field is legal exactly when both its bytes are zero, in either order (20_memory.md R48). -/
theorem lengthOk_length16 (lo hi : Byte) : lengthOk (length16 lo hi) = true ↔ lo = 0 ∧ hi = 0 := by
  rw [lengthOk, length16, beq_iff_eq]
  refine ⟨fun h => ?_, fun ⟨hl, hh⟩ => by rw [hl, hh]; rfl⟩
  have hn := congrArg BitVec.toNat h
  simp only [BitVec.toNat_append, BitVec.ofNat_eq_ofNat, BitVec.toNat_ofNat, Nat.zero_mod, Nat.shiftLeft_eq] at hn
  have hhi : hi.toNat * 2 ^ 8 ≤ 0 := hn ▸ Nat.left_le_or
  have hlo : lo.toNat ≤ 0 := hn ▸ Nat.right_le_or
  exact ⟨BitVec.eq_of_toNat_eq (by simp; omega), BitVec.eq_of_toNat_eq (by simp; omega)⟩

theorem bitLengthOk_iff (len : Byte) : bitLengthOk len = true ↔ len = 0 := by
  rw [bitLengthOk, beq_iff_eq]

/-- The operands always give an instruction or an error code: an opcode byte is there (30_encoding.md R71). -/
theorem decodeOperands_ne_noOpcode (k : Kind) (operands : List Byte) : decodeOperands k operands ≠ .noOpcode := by
  cases k <;>
    simp [decodeOperands, decodePins, decodeByteOut, decodeByteIn, decodeBitOut, decodeDivisor] <;>
    repeat' split
  all_goals simp

/-- There is no opcode exactly when there is no byte (30_encoding.md R71). -/
theorem decode_eq_noOpcode_iff (opc : OpcodeMap) (bytes : List Byte) : decode opc bytes = .noOpcode ↔ bytes = [] := by
  refine ⟨fun h => ?_, fun h => by rw [h]; rfl⟩
  cases bytes with
  | nil => rfl
  | cons op operands =>
    rw [decode] at h
    split at h
    · cases h
    · exact absurd h (decodeOperands_ne_noOpcode _ _)

end Sys2Proof
end

