-- ==== Sys2Proof/Laws/State.lean ====
section
/-! SUPPORT. One lemma per field and update: what each named update of State leaves and sets. -/

namespace Sys2Proof.Machine

section updates
variable (s : State) (code : ErrorCode) (cmd : Command) (n : Nat)

@[simp] theorem raiseError_status : (raiseError code s).status = .error code s.cur := rfl
@[simp] theorem raiseError_buf : (raiseError code s).buf = s.buf := rfl
@[simp] theorem raiseError_cur : (raiseError code s).cur = s.cur := rfl
@[simp] theorem raiseError_cmdLog : (raiseError code s).cmdLog = s.cmdLog := rfl
@[simp] theorem raiseError_sink : (raiseError code s).sink = s.sink := rfl
@[simp] theorem raiseError_durable : (raiseError code s).durable = s.durable := rfl
@[simp] theorem raiseError_crashed : (raiseError code s).crashed = s.crashed := rfl
@[simp] theorem raiseError_opc : (raiseError code s).opc = s.opc := rfl
@[simp] theorem raiseError_sinkOk : (raiseError code s).sinkOk = s.sinkOk := rfl
@[simp] theorem raiseError_turns : (raiseError code s).turns = s.turns := rfl

@[simp] theorem logCommand_status : (logCommand cmd s).status = s.status := rfl
@[simp] theorem logCommand_buf : (logCommand cmd s).buf = s.buf := rfl
@[simp] theorem logCommand_cur : (logCommand cmd s).cur = s.cur := rfl
@[simp] theorem logCommand_cmdLog : (logCommand cmd s).cmdLog = s.cmdLog ++ [cmd] := rfl
@[simp] theorem logCommand_sink : (logCommand cmd s).sink = s.sink := rfl
@[simp] theorem logCommand_durable : (logCommand cmd s).durable = s.durable := rfl
@[simp] theorem logCommand_crashed : (logCommand cmd s).crashed = s.crashed := rfl
@[simp] theorem logCommand_opc : (logCommand cmd s).opc = s.opc := rfl
@[simp] theorem logCommand_sinkOk : (logCommand cmd s).sinkOk = s.sinkOk := rfl
@[simp] theorem logCommand_turns : (logCommand cmd s).turns = s.turns := rfl

@[simp] theorem advance_status : (advance n s).status = s.status := rfl
@[simp] theorem advance_buf : (advance n s).buf = s.buf := rfl
@[simp] theorem advance_cur : (advance n s).cur = s.cur + n := rfl
@[simp] theorem advance_cmdLog : (advance n s).cmdLog = s.cmdLog := rfl
@[simp] theorem advance_sink : (advance n s).sink = s.sink := rfl
@[simp] theorem advance_durable : (advance n s).durable = s.durable := rfl
@[simp] theorem advance_crashed : (advance n s).crashed = s.crashed := rfl
@[simp] theorem advance_opc : (advance n s).opc = s.opc := rfl
@[simp] theorem advance_sinkOk : (advance n s).sinkOk = s.sinkOk := rfl
@[simp] theorem advance_turns : (advance n s).turns = s.turns := rfl

end updates

end Sys2Proof.Machine
end

