-- ==== Sys2Proof/Laws/Ops.lean ====
section
/-! SUPPORT. One lemma per shared operation: everything it can do. -/

namespace Sys2Proof.Machine

/-! ### The oracle -/

theorem askOracle_eq (o : SinkOracle) : askOracle o = (oracleAnswer o 0, oracleSkip o 1) := by
  obtain ⟨answers, thereafter⟩ := o
  cases answers <;> simp [askOracle, oracleAnswer, oracleSkip]

@[simp] theorem oracleSkip_zero (o : SinkOracle) : oracleSkip o 0 = o := by
  simp [oracleSkip]

@[simp] theorem oracleSkip_skip (o : SinkOracle) (m n : Nat) :
    oracleSkip (oracleSkip o m) n = oracleSkip o (m + n) := by
  simp [oracleSkip, List.drop_drop]

@[simp] theorem oracleAnswer_skip (o : SinkOracle) (m n : Nat) :
    oracleAnswer (oracleSkip o m) n = oracleAnswer o (m + n) := by
  simp [oracleAnswer, oracleSkip, List.getElem?_drop]

theorem oracleGrants_mono {o : SinkOracle} {m n : Nat} (h : oracleGrants o n) (hmn : m ≤ n) :
    oracleGrants o m :=
  fun j hj => h j (by omega)

/-- Either the next `n` asks succeed, or there is a first one that fails. -/
theorem oracle_grants_or_first_failure (o : SinkOracle) (n : Nat) :
    oracleGrants o n ∨ ∃ j, j < n ∧ oracleGrants o j ∧ oracleAnswer o j = false := by
  induction n with
  | zero => exact .inl fun j hj => absurd hj (by omega)
  | succ n ih =>
    obtain h | ⟨j, hj, hg, hf⟩ := ih
    · cases ha : oracleAnswer o n with
      | true =>
        refine .inl fun j hj => ?_
        obtain hlt | rfl := Nat.lt_succ_iff_lt_or_eq.mp hj
        · exact h j hlt
        · exact ha
      | false => exact .inr ⟨n, by omega, h, ha⟩
    · exact .inr ⟨j, by omega, hg, hf⟩

/-! ### The sink primitives -/

theorem sinkAppend_granted {s : State} (b : Byte) (h : oracleAnswer s.sinkOk 0 = true) :
    sinkAppend b s = (true, { s with sink := s.sink ++ [b], sinkOk := oracleSkip s.sinkOk 1 }) := by
  simp [sinkAppend, askOracle_eq, h]

theorem sinkAppend_denied {s : State} (b : Byte) (h : oracleAnswer s.sinkOk 0 = false) :
    sinkAppend b s = (false, { s with sinkOk := oracleSkip s.sinkOk 1 }) := by
  simp [sinkAppend, askOracle_eq, h]

theorem sinkFlush_granted {s : State} (h : oracleAnswer s.sinkOk 0 = true) :
    sinkFlush s = (true, { s with durable := s.sink.length, sinkOk := oracleSkip s.sinkOk 1 }) := by
  simp [sinkFlush, askOracle_eq, h]

theorem sinkFlush_denied {s : State} (h : oracleAnswer s.sinkOk 0 = false) :
    sinkFlush s = (false, { s with sinkOk := oracleSkip s.sinkOk 1 }) := by
  simp [sinkFlush, askOracle_eq, h]

/-- When the asks succeed, all the samples are appended in order. -/
theorem appendAll_granted (l : List Byte) (s : State) (h : oracleGrants s.sinkOk l.length) :
    appendAll l s = (true, { s with sink := s.sink ++ l, sinkOk := oracleSkip s.sinkOk l.length }) := by
  induction l generalizing s with
  | nil => simp [appendAll]
  | cons b l ih =>
    have hrest : oracleGrants (oracleSkip s.sinkOk 1) l.length := fun j hj => by
      simpa using h (1 + j) (by simp; omega)
    simp only [appendAll, sinkAppend_granted b (h 0 (by simp))]
    rw [ih _ hrest]
    simp [Nat.add_comm]

/-- When ask `j` is the first to fail, exactly the first `j` samples are appended. -/
theorem appendAll_denied (l : List Byte) (s : State) (j : Nat) (hj : j < l.length)
    (h : oracleGrants s.sinkOk j) (hf : oracleAnswer s.sinkOk j = false) :
    appendAll l s = (false, { s with sink := s.sink ++ l.take j, sinkOk := oracleSkip s.sinkOk (j + 1) }) := by
  induction l generalizing s j with
  | nil => simp at hj
  | cons b l ih =>
    cases j with
    | zero => simp [appendAll, sinkAppend_denied b hf]
    | succ j =>
      have hrest : oracleGrants (oracleSkip s.sinkOk 1) j := fun i hi => by
        simpa using h (1 + i) (by omega)
      simp only [appendAll, sinkAppend_granted b (h 0 (by omega))]
      rw [ih _ j (by simpa using hj) hrest (by simpa [Nat.add_comm] using hf)]
      simp [Nat.add_comm, Nat.add_left_comm]

/-! ### The command -/

/-- The kinds whose commands have samples (20_memory.md R56). -/
theorem synth_commandOf_eq_nil_iff (i : Instr) : synth (commandOf i) = [] ↔ emits i.kind = false := by
  cases i <;> simp [emits, Instr.kind, commandOf, synth, emitBurst]

/-- A command without samples only logs and advances. -/
theorem perform_silent {cmd : Command} (size : Nat) (s : State) (h : synth cmd = []) :
    perform cmd size s = { s with cmdLog := s.cmdLog ++ [cmd], cur := s.cur + size } := by
  simp [perform, h, advance, logCommand]

/-- A command with samples whose asks all succeed: the samples, one flush, the advance. -/
theorem perform_granted {cmd : Command} (size : Nat) (s : State) (hne : synth cmd ≠ [])
    (h : oracleGrants s.sinkOk ((synth cmd).length + 1)) :
    perform cmd size s =
      { s with
        cmdLog := s.cmdLog ++ [cmd]
        sink := s.sink ++ synth cmd
        durable := (s.sink ++ synth cmd).length
        cur := s.cur + size
        sinkOk := oracleSkip s.sinkOk ((synth cmd).length + 1) } := by
  obtain ⟨b, l, hl⟩ := List.exists_cons_of_ne_nil hne
  have happ := appendAll_granted (b :: l) (logCommand cmd s)
    (by rw [hl] at h; exact oracleGrants_mono h (by omega))
  have hflush : oracleAnswer s.sinkOk (b :: l).length = true := h _ (by rw [hl]; omega)
  simp only [perform, hl, emitSamples, happ]
  rw [sinkFlush_granted (by simpa using hflush)]
  simp [advance, logCommand]

/-- A command whose append `j` is the first ask to fail. -/
theorem perform_append_denied {cmd : Command} (size : Nat) (s : State) (j : Nat)
    (hj : j < (synth cmd).length) (h : oracleGrants s.sinkOk j) (hf : oracleAnswer s.sinkOk j = false) :
    perform cmd size s =
      { s with
        cmdLog := s.cmdLog ++ [cmd]
        sink := s.sink ++ (synth cmd).take j
        status := .error .sinkWriteFailure s.cur
        sinkOk := oracleSkip s.sinkOk (j + 1) } := by
  obtain ⟨b, l, hl⟩ := List.exists_cons_of_ne_nil (l := synth cmd) (by rintro h0; simp [h0] at hj)
  have happ := appendAll_denied (b :: l) (logCommand cmd s) j (by simpa [hl] using hj) h hf
  simp only [perform, hl, emitSamples, happ]
  simp [raiseError, logCommand]

/-- A command with samples whose flush fails. -/
theorem perform_flush_denied {cmd : Command} (size : Nat) (s : State) (hne : synth cmd ≠ [])
    (h : oracleGrants s.sinkOk (synth cmd).length)
    (hf : oracleAnswer s.sinkOk (synth cmd).length = false) :
    perform cmd size s =
      { s with
        cmdLog := s.cmdLog ++ [cmd]
        sink := s.sink ++ synth cmd
        status := .error .sinkWriteFailure s.cur
        sinkOk := oracleSkip s.sinkOk ((synth cmd).length + 1) } := by
  obtain ⟨b, l, hl⟩ := List.exists_cons_of_ne_nil hne
  have happ := appendAll_granted (b :: l) (logCommand cmd s) (by rw [hl] at h; exact h)
  simp only [perform, hl, emitSamples, happ]
  rw [sinkFlush_denied (by simpa [hl] using hf)]
  simp [raiseError, logCommand]

/-- Everything a command can do to the state: the four ways of R33. -/
theorem perform_cases (cmd : Command) (size : Nat) (s : State) :
    (synth cmd = [] ∧
      perform cmd size s = { s with cmdLog := s.cmdLog ++ [cmd], cur := s.cur + size }) ∨
    (synth cmd ≠ [] ∧ perform cmd size s =
      { s with
        cmdLog := s.cmdLog ++ [cmd]
        sink := s.sink ++ synth cmd
        durable := (s.sink ++ synth cmd).length
        cur := s.cur + size
        sinkOk := oracleSkip s.sinkOk ((synth cmd).length + 1) }) ∨
    (∃ j, j ≤ (synth cmd).length ∧ synth cmd ≠ [] ∧ perform cmd size s =
      { s with
        cmdLog := s.cmdLog ++ [cmd]
        sink := s.sink ++ (synth cmd).take j
        status := .error .sinkWriteFailure s.cur
        sinkOk := oracleSkip s.sinkOk (j + 1) }) := by
  by_cases h0 : synth cmd = []
  · exact .inl ⟨h0, perform_silent size s h0⟩
  · obtain h | ⟨j, hj, hg, hf⟩ := oracle_grants_or_first_failure s.sinkOk ((synth cmd).length + 1)
    · exact .inr (.inl ⟨h0, perform_granted size s h0 h⟩)
    · refine .inr (.inr ⟨j, by omega, h0, ?_⟩)
      obtain hlt | rfl := Nat.lt_succ_iff_lt_or_eq.mp hj
      · exact perform_append_denied size s j hlt hg hf
      · simpa using perform_flush_denied size s h0 hg hf

/-- Every arm of exec performs the value of its command over its size. -/
theorem exec_eq_perform (i : Instr) (s : State) :
    exec i s = .next (perform (commandOf i) i.size s) := by
  cases i <;> rfl

/-- The sizes of the commands (30_encoding.md R66) are positive. -/
theorem size_pos (i : Instr) : 0 < i.size := by
  cases i <;> exact Nat.succ_pos _

end Sys2Proof.Machine
end

