-- ==== Sys2Proof/Laws/Memory.lean ====
section
/-! SUPPORT. The sink stays in form: every operation on it keeps Memory.wf (20_memory.md R53, 10_state.md R20). -/

namespace Sys2Proof.Machine

theorem sampleOf_ok (dat clk : Bool) : sampleOk (sampleOf dat clk) = true := by
  cases dat <;> cases clk <;> decide

/-- Every sample of every command has bits 7:2 zero. -/
theorem synth_ok (cmd : Command) : (synth cmd).all sampleOk = true := by
  cases cmd <;> simp [synth, emitBurst, sampleOf_ok]

theorem Memory.wf_iff (s : State) :
    Memory.wf s = true ↔ s.sink.all sampleOk = true ∧ s.durable ≤ s.sink.length := by
  simp only [Memory.wf, Bool.and_eq_true, decide_eq_true_eq]

theorem Memory.wf_reset (opc : OpcodeMap) (o : SinkOracle) (ts : List Turn) :
    Memory.wf (State.resetWith opc o ts) = true := rfl

theorem Memory.wf_sinkAppend {b : Byte} {s : State} (hb : sampleOk b = true) (h : Memory.wf s = true) :
    Memory.wf (sinkAppend b s).2 = true := by
  rw [Memory.wf_iff] at h ⊢
  unfold sinkAppend
  split
  · refine ⟨?_, ?_⟩
    · simpa [hb] using h.1
    · have := h.2; simp; omega
  · exact h

theorem Memory.wf_sinkFlush {s : State} (h : Memory.wf s = true) : Memory.wf (sinkFlush s).2 = true := by
  rw [Memory.wf_iff] at h ⊢
  unfold sinkFlush
  split
  · exact ⟨h.1, Nat.le_refl _⟩
  · exact h

/-- Appending well-formed samples keeps the sink in form, whatever `durable` becomes within it. -/
theorem Memory.wf_extend {s t : State} {l : List Byte} (h : Memory.wf s = true)
    (hl : l.all sampleOk = true) (hsink : t.sink = s.sink ++ l)
    (hd : t.durable = s.durable ∨ t.durable = t.sink.length) : Memory.wf t = true := by
  rw [Memory.wf_iff] at h ⊢
  refine ⟨by rw [hsink, List.all_append, h.1, hl]; rfl, ?_⟩
  have := congrArg List.length hsink
  simp at this
  omega

theorem all_take {l : List Byte} (h : l.all sampleOk = true) (n : Nat) : (l.take n).all sampleOk = true :=
  List.all_eq_true.mpr fun b hb => List.all_eq_true.mp h b (List.mem_of_mem_take hb)

theorem Memory.wf_perform {cmd : Command} {size : Nat} {s : State} (h : Memory.wf s = true) :
    Memory.wf (perform cmd size s) = true := by
  obtain ⟨-, he⟩ | ⟨-, he⟩ | ⟨j, -, -, he⟩ := perform_cases cmd size s <;> rw [he]
  · exact Memory.wf_extend (l := []) h rfl (by simp) (.inl rfl)
  · exact Memory.wf_extend h (synth_ok cmd) rfl (.inr rfl)
  · exact Memory.wf_extend h (all_take (synth_ok cmd) j) rfl (.inl rfl)

theorem samplesInFlight_ok (s : State) : (samplesInFlight s).all sampleOk = true := by
  unfold samplesInFlight
  repeat (first | rfl | exact synth_ok _ | split)

theorem crashTrace_ok {inStep : Bool} {s : State} (h : Memory.wf s = true) :
    (crashTrace inStep s).all sampleOk = true := by
  rw [Memory.wf_iff] at h
  rw [crashTrace, List.all_append, h.1]
  cases inStep
  · rfl
  · simpa using samplesInFlight_ok s

theorem Memory.wf_crash {inStep : Bool} {keep : Nat} {s t : State} (h : Memory.wf s = true)
    (ht : crash inStep keep s = .next t) : Memory.wf t = true := by
  unfold crash at ht
  split at ht
  · cases ht
  · split at ht
    · obtain rfl := Host.Outcome.next.inj ht
      exact (Memory.wf_iff _).mpr ⟨all_take (crashTrace_ok h) keep, Nat.le_refl _⟩
    · cases ht

theorem Memory.wf_processReset (s : State) : Memory.wf (processReset s) = true := rfl

end Sys2Proof.Machine
end

