-- ==== Sys2Proof/Laws/PerInstr.lean ====
section
/-! SUPPORT. For each command: its encoding is its kind's opcode byte and then its operand bytes, as many bytes as the
Opcode Table gives the kind (30_encoding.md R65, R66). -/

namespace Sys2Proof.Laws.Encoding

/-- The encoding of a command, under every opcode map, begins with its kind's opcode byte and is of its kind's size. -/
def Statement (i : Instr) : Prop :=
  ∀ opc : OpcodeMap, (encode opc i).head? = some (opc.byte i.kind) ∧ (encode opc i).length = i.size

theorem setAdBus (v d : Byte) : Statement (.setAdBus v d) := fun _ => ⟨rfl, rfl⟩
theorem clockByteOut (b : Byte) : Statement (.clockByteOut b) := fun _ => ⟨rfl, rfl⟩
theorem clockByteIn : Statement .clockByteIn := fun _ => ⟨rfl, rfl⟩
theorem clockBitOut (x : Byte) : Statement (.clockBitOut x) := fun _ => ⟨rfl, rfl⟩
theorem readStatus : Statement .readStatus := fun _ => ⟨rfl, rfl⟩
theorem disableLoopback : Statement .disableLoopback := fun _ => ⟨rfl, rfl⟩
theorem sendImmediate : Statement .sendImmediate := fun _ => ⟨rfl, rfl⟩
theorem setDivisor (x0 x1 : Byte) : Statement (.setDivisor x0 x1) := fun _ => ⟨rfl, rfl⟩

end Sys2Proof.Laws.Encoding
end

