-- ==== Sys2Proof/Laws/Step.lean ====
section
/-! SUPPORT. What a step can do, said once: one inversion lemma per mover, and one for the step. -/

namespace Sys2Proof.Machine

@[simp] theorem popTurn_buf (s : State) : (popTurn s).buf = s.buf := rfl
@[simp] theorem popTurn_cur (s : State) : (popTurn s).cur = s.cur := rfl
@[simp] theorem popTurn_status (s : State) : (popTurn s).status = s.status := rfl
@[simp] theorem popTurn_cmdLog (s : State) : (popTurn s).cmdLog = s.cmdLog := rfl
@[simp] theorem popTurn_sink (s : State) : (popTurn s).sink = s.sink := rfl
@[simp] theorem popTurn_durable (s : State) : (popTurn s).durable = s.durable := rfl
@[simp] theorem popTurn_crashed (s : State) : (popTurn s).crashed = s.crashed := rfl
@[simp] theorem popTurn_opc (s : State) : (popTurn s).opc = s.opc := rfl
@[simp] theorem popTurn_sinkOk (s : State) : (popTurn s).sinkOk = s.sinkOk := rfl
@[simp] theorem popTurn_turns (s : State) : (popTurn s).turns = s.turns.tail := rfl
@[simp] theorem fetchBytes_popTurn (s : State) : fetchBytes (popTurn s) = fetchBytes s := rfl
@[simp] theorem samplesInFlight_popTurn (s : State) : samplesInFlight (popTurn s) = samplesInFlight s := rfl
@[simp] theorem crashTrace_popTurn (b : Bool) (s : State) : crashTrace b (popTurn s) = crashTrace b s := rfl

/-- The block's step answers a next state in exactly three ways (10_state.md R33). -/
theorem blockStep_cases {s t : State} (h : blockStep s = .next t) :
    s.crashed = false ∧ s.status = .busy ∧
    ((s.cur = s.buf.length ∧ t = { s with status := .done }) ∨
     (s.cur ≠ s.buf.length ∧ ∃ code, decode s.opc (fetchBytes s) = .err code ∧ t = raiseError code s) ∨
     (s.cur ≠ s.buf.length ∧ ∃ i, decode s.opc (fetchBytes s) = .ok i ∧ t = perform (commandOf i) i.size s)) := by
  unfold blockStep at h
  split at h
  · cases h
  · rename_i hc
    split at h
    · rename_i hs
      refine ⟨by simpa using hc, hs, ?_⟩
      split at h
      · rename_i hcur
        exact .inl ⟨hcur, (Host.Outcome.next.inj h).symm⟩
      · rename_i hcur
        split at h
        · rename_i i hd
          rw [exec_eq_perform] at h
          exact .inr (.inr ⟨hcur, i, hd, (Host.Outcome.next.inj h).symm⟩)
        · rename_i code hd
          exact .inr (.inl ⟨hcur, code, hd, (Host.Outcome.next.inj h).symm⟩)
        · cases h
    all_goals cases h

/-- `Start` answers a next state in one way (10_state.md R31). -/
theorem hostStart_cases {buffer : List Byte} {s t : State} (h : hostStart buffer s = .next t) :
    s.crashed = false ∧ s.status ≠ .busy ∧
      t = { s with buf := buffer, cur := 0, cmdLog := [], status := .busy } := by
  unfold hostStart at h
  split at h
  · cases h
  · rename_i hc
    split at h
    · cases h
    all_goals
      rename_i hs
      exact ⟨by simpa using hc, by simp [hs], (Host.Outcome.next.inj h).symm⟩

/-- A crash answers a next state in one way (20_memory.md R60). -/
theorem crash_cases {inStep : Bool} {keep : Nat} {s t : State} (h : crash inStep keep s = .next t) :
    s.crashed = false ∧ s.durable ≤ keep ∧ keep ≤ (crashTrace inStep s).length ∧
      t = { s with
        sink := (crashTrace inStep s).take keep
        durable := ((crashTrace inStep s).take keep).length
        crashed := true } := by
  unfold crash at h
  split at h
  · cases h
  · rename_i hc
    split at h
    · rename_i hb
      exact ⟨by simpa using hc, hb.1, hb.2, (Host.Outcome.next.inj h).symm⟩
    · cases h

/-- The final flush answers a next state in one way (70_reset_and_hazards.md R154). -/
theorem close_cases {s t : State} (h : close s = .next t) :
    s.crashed = false ∧ s.status ≠ .busy ∧ t = (sinkFlush s).2 := by
  unfold close at h
  split at h
  · cases h
  · rename_i hc
    split at h
    · cases h
    all_goals
      rename_i hs
      exact ⟨by simpa using hc, by simp [hs], (Host.Outcome.next.inj h).symm⟩

/-- A step answers a next state only under an injective map, and then as its mover does. -/
theorem step_cases {s t : State} (h : step s = .next t) :
    s.opc.wellFormed = true ∧ takeTurn (nextTurn s) (popTurn s) = .next t := by
  unfold step at h
  split at h
  · exact ⟨‹_›, h⟩
  · cases h

/-- When the block moves, the step is the block's. -/
theorem step_block {s : State} (hw : s.opc.wellFormed = true) (ht : nextTurn s = .block) :
    step s = blockStep (popTurn s) := by
  rw [step, if_pos hw, ht]
  rfl

/-- An error retracts nothing and a command writes only what R36 of 10_state.md allows: the frame of the shared part of the
step. -/
theorem perform_frame (cmd : Command) (size : Nat) (s : State) :
    (perform cmd size s).buf = s.buf ∧ (perform cmd size s).crashed = s.crashed ∧
      (perform cmd size s).opc = s.opc ∧ (perform cmd size s).turns = s.turns ∧
      (perform cmd size s).cmdLog = s.cmdLog ++ [cmd] := by
  obtain ⟨-, he⟩ | ⟨-, he⟩ | ⟨j, -, -, he⟩ := perform_cases cmd size s <;> rw [he] <;> exact ⟨rfl, rfl, rfl, rfl, rfl⟩

/-- A flush changes `durable` and the oracle at most (20_memory.md R55). -/
theorem sinkFlush_frame (s : State) :
    (sinkFlush s).2 = { s with durable := (sinkFlush s).2.durable, sinkOk := (sinkFlush s).2.sinkOk } := by
  unfold sinkFlush
  split <;> rfl

theorem run_succ (M : Host.Core) (k : Nat) (s : M.State) :
    M.run (k + 1) s =
      match M.step s with
      | .next t => M.run k t
      | .fault r => .fault r
      | .refused r => .refused r := by
  cases h : M.step s <;> simp [Host.Core.run, h]

/-- `stepN` is the host's run of the machine. -/
theorem stepN_eq_run (k : Nat) (s : State) : stepN k s = Host.Core.run Sys2Proof.core k s := by
  induction k generalizing s with
  | zero => rfl
  | succ k ih =>
    rw [stepN, run_succ Sys2Proof.core k s, show Sys2Proof.core.step s = step s from rfl]
    cases step s with
    | next t => exact ih t
    | fault r => rfl
    | refused r => rfl

end Sys2Proof.Machine
end

