-- ==== Sys2Proof/Tests/Slice0.lean ====
section
/-! SUPPORT. Tests of single steps, with the expected results of spec/95_test_vectors.md or worked out by hand from the rule
named, and for every statement with hypotheses a witness that meets them. -/

namespace Sys2Proof.Machine.Tests

/-- An invocation in progress on `buffer`, the sink answering `answers` and then success, with the schedule `turns`. -/
def busyOn (buffer : List Byte) (answers : List Bool) (turns : List Turn) : State :=
  { State.resetWith suggestedOpc { answers := answers, thereafter := true } turns with buf := buffer, status := .busy }

/-- The next state of an outcome, if it is one. -/
def nextOf (o : Host.Outcome State Fault Refusal) : Option State :=
  match o with
  | .next t => some t
  | .fault _ => none
  | .refused _ => none

/-- What a reader sees of the next state: the status, the cursor, the sink and durable. -/
def seen (o : Host.Outcome State Fault Refusal) : Option (Status × Nat × List Byte × Nat) :=
  (nextOf o).map fun t => (t.status, t.cur, t.sink, t.durable)

/-! ### Well-formedness: each check refuses an ill-formed term -/

theorem test_suggested_map_ok : suggestedOpc.wellFormed = true := by decide
theorem test_map_with_shared_byte_refused : ({ suggestedOpc with sendImmediate := 0x80 }).wellFormed = false := by decide
theorem test_length_refused : lengthOk 0x0100 = false ∧ lengthOk 0x0001 = false ∧ lengthOk 0 = true := by decide
theorem test_bit_length_refused : bitLengthOk 0x01 = false ∧ bitLengthOk 0 = true := by decide
theorem test_sample_refused : sampleOk 0x04 = false ∧ sampleOk 0x80 = false ∧ sampleOk 0x03 = true := by decide

/-! ### Decoding: words written bit by bit from the encodings of opcode_table.json -/

theorem test_decode_setAdBus : decode suggestedOpc [0b10000000, 0b01011010, 0b11000011] = .ok (.setAdBus 0x5A 0xC3) := by
  decide
theorem test_decode_clockByteOut :
    decode suggestedOpc [0b00010001, 0b00000000, 0b00000000, 0b01011010] = .ok (.clockByteOut 0x5A) := by decide
theorem test_decode_clockByteIn : decode suggestedOpc [0b00100000, 0b00000000, 0b00000000, 0b00010011] = .ok .clockByteIn := by
  decide
theorem test_decode_clockBitOut : decode suggestedOpc [0b00010011, 0b00000000, 0b11111111] = .ok (.clockBitOut 0xFF) := by
  decide
theorem test_decode_readStatus : decode suggestedOpc [0b10000001] = .ok .readStatus := by decide
theorem test_decode_disableLoopback : decode suggestedOpc [0b10000101] = .ok .disableLoopback := by decide
theorem test_decode_sendImmediate : decode suggestedOpc [0b10000111] = .ok .sendImmediate := by decide
/-- V-IG-5: the operand bytes are not opcodes. -/
theorem test_decode_setDivisor : decode suggestedOpc [0b10000110, 0b10000000, 0b10000111] = .ok (.setDivisor 0x80 0x87) := by
  decide
/-- V-CBO-7 to V-CBO-12 (30_encoding.md R72, 60_exceptions.md R132). -/
theorem test_decode_clockByteOut_errors :
    decode suggestedOpc [0x11, 0x01, 0x00] = .err .unsupportedLength ∧
    decode suggestedOpc [0x11, 0x00, 0x01, 0xAA] = .err .unsupportedLength ∧
    decode suggestedOpc [0x11, 0x05] = .err .truncatedInput ∧
    decode suggestedOpc [0x11, 0x00, 0x00] = .err .truncatedInput := by decide
/-- V-CBT-8, V-CBT-9, V-CBI-3, V-SP-8, V-IG-6. -/
theorem test_decode_other_errors :
    decode suggestedOpc [0x13, 0x00] = .err .truncatedInput ∧ decode suggestedOpc [0x13, 0x01] = .err .unsupportedLength ∧
    decode suggestedOpc [0x20, 0x00, 0x01] = .err .unsupportedLength ∧
    decode suggestedOpc [0x80, 0x00] = .err .truncatedInput ∧ decode suggestedOpc [0x86, 0x00] = .err .truncatedInput := by
  decide
/-- V-UO-1, V-UO-3: 0x00 and the real chip's high-byte pin set are not in the table. -/
theorem test_decode_illegal :
    decode suggestedOpc [0x00] = .err .unrecognizedOpcode ∧
    decode suggestedOpc [0x82, 0x00, 0x00] = .err .unrecognizedOpcode := by decide
/-- The encoder writes the bytes of R86. -/
theorem test_encode :
    encode suggestedOpc (.clockByteOut 0xA0) = [0x11, 0x00, 0x00, 0xA0] ∧
    encode suggestedOpc (.clockBitOut 0x00) = [0x13, 0x00, 0x00] ∧
    encode suggestedOpc (.setAdBus 0x03 0x01) = [0x80, 0x03, 0x01] := by decide
theorem test_decodeTableWord :
    decodeTableWord 24 0x030280 = some (.setAdBus 0x02 0x03) ∧ decodeTableWord 8 0x81 = some .readStatus ∧
    decodeTableWord 8 0x11 = some (.clockByteOut 0x00) ∧ decodeTableWord 16 0x0113 = none := by decide

/-! ### One step of each command (95_test_vectors.md) -/

/-- V-SP-4: the direction is ignored. -/
theorem test_setAdBus_input_pins_traced :
    seen (step (busyOn [0x80, 0x03, 0x00] [] [])) = some (.busy, 3, [0x03], 1) := by decide
/-- V-SP-5: pins 2 to 7 are not traced. -/
theorem test_setAdBus_high_pins_untraced :
    seen (step (busyOn [0x80, 0xFC, 0xFF] [] [])) = some (.busy, 3, [0x00], 1) := by decide
/-- V-CBO-5, 0xA5. -/
theorem test_clockByteOut :
    seen (step (busyOn [0x11, 0x00, 0x00, 0xA5] [] [])) = some (.busy, 4,
      [0x02, 0x03, 0x02, 0x00, 0x01, 0x00, 0x02, 0x03, 0x02, 0x00, 0x01, 0x00,
       0x00, 0x01, 0x00, 0x02, 0x03, 0x02, 0x00, 0x01, 0x00, 0x02, 0x03, 0x02], 24) := by decide
/-- V-SW-1's failing command: the tenth append fails. -/
theorem test_clockByteOut_append_fails :
    seen (step (busyOn [0x11, 0x00, 0x00, 0x55] [true, true, true, true, true, true, true, true, true, false] [])) =
      some (.error .sinkWriteFailure 0, 0, [0x00, 0x01, 0x00, 0x02, 0x03, 0x02, 0x00, 0x01, 0x00], 0) := by decide
/-- V-CBT-3: the permissive mapping. -/
theorem test_clockBitOut_permissive :
    seen (step (busyOn [0x13, 0x00, 0x80] [] [])) = some (.busy, 3, [0x00, 0x01, 0x00], 3) := by decide
/-- V-CBT-1. -/
theorem test_clockBitOut_true :
    seen (step (busyOn [0x13, 0x00, 0xFF] [] [])) = some (.busy, 3, [0x02, 0x03, 0x02], 3) := by decide
/-- V-SW-3: the oracle is never asked. -/
theorem test_clockByteIn_silent :
    seen (step (busyOn [0x20, 0x00, 0x00] [false] [])) = some (.busy, 3, [], 0) := by decide
/-- V-IG-1, V-IG-2. -/
theorem test_readStatus_disableLoopback_silent :
    seen (step (busyOn [0x81] [false] [])) = some (.busy, 1, [], 0) ∧
    seen (step (busyOn [0x85, 0x85] [false] [])) = some (.busy, 1, [], 0) := by decide
/-- V-IG-3, V-IG-4. -/
theorem test_sendImmediate_setDivisor_silent :
    seen (step (busyOn [0x87] [false] [])) = some (.busy, 1, [], 0) ∧
    seen (step (busyOn [0x86, 0x05, 0x00] [false] [])) = some (.busy, 3, [], 0) := by decide
/-- V-SW-2: the flush fails. -/
theorem test_setAdBus_flush_fails :
    seen (step (busyOn [0x80, 0x03, 0x03, 0x87] [true, false] [])) =
      some (.error .sinkWriteFailure 0, 0, [0x03], 0) := by decide
/-- V-UO-1 and V-UO-4. -/
theorem test_step_illegal_and_empty :
    seen (step (busyOn [0x00] [] [])) = some (.error .unrecognizedOpcode 0, 0, [], 0) ∧
    seen (step (busyOn [] [] [])) = some (.done, 0, [], 0) := by decide
/-- W2: the logged pins of `80 02 03`. -/
theorem test_setAdBus_logs_pins :
    (nextOf (step (busyOn [0x80, 0x02, 0x03] [] []))).map (·.cmdLog) =
      some [.setPins #v[⟨false, .output⟩, ⟨true, .output⟩, ⟨false, .input⟩, ⟨false, .input⟩,
        ⟨false, .input⟩, ⟨false, .input⟩, ⟨false, .input⟩, ⟨false, .input⟩]] := by decide
/-- V-CR-1: a crash inside a ClockBitOut step keeps the durable part and a front part of the burst. -/
theorem test_crash_inside_step :
    seen (step { busyOn [0x13, 0x00, 0x00] [] [.crash true 5] with sink := [0x03, 0x02, 0x03, 0x02], durable := 4 }) =
      some (.busy, 0, [0x03, 0x02, 0x03, 0x02, 0x00], 5) := by decide
/-- V-CR-3 and R31. -/
theorem test_reset_and_start :
    seen (step { busyOn [0x13] [] [.processReset] with sink := [0x03], crashed := true }) = some (.idle, 0, [], 0) ∧
    seen (step { State.reset with sink := [0x03], durable := 1, turns := [.start [0x81]] }) =
      some (.busy, 0, [0x03], 1) := by decide
/-- The word that withFetchWord stores runs from reset. -/
theorem test_withFetchWord :
    seen (step (State.reset.withFetchWord 24 0x030280)) = some (.busy, 3, [0x02], 1) := by decide

/-! ### Witnesses: for each statement of Certificates/Slice0/Obligations.lean, a state and operands that meet its hypotheses
together, for each clause of its own. A statement whose only hypothesis is an injective map (KindLookup, DecodeEncode,
ErrorPriority, SetAdBusPins) is met by `test_suggested_map_ok`; one whose hypothesis is a decoding (EncodeDecode,
FetchWordRuns) by `test_decode_setAdBus` and `test_decodeTableWord`. -/

/-- An invocation on `80 03 03 13 00 FF`, `len` bytes of it read, nothing scheduled. -/
def midway (len : Nat) (sink : List Byte) (durable : Nat) : State :=
  { busyOn [0x80, 0x03, 0x03, 0x13, 0x00, 0xFF] [] [] with cur := len, sink := sink, durable := durable }

theorem busyOn_enabled (buffer : List Byte) (answers : List Bool) : BlockEnabled (busyOn buffer answers []) :=
  ⟨test_suggested_map_ok, rfl, rfl, rfl⟩

theorem busyOn_undisturbed (buffer : List Byte) : Undisturbed (busyOn buffer [] []) :=
  ⟨busyOn_enabled buffer [], rfl, fun n => by cases n <;> rfl⟩

theorem success_grants (n : Nat) : oracleGrants { answers := [], thereafter := true } n :=
  fun j _ => by cases j <;> rfl

/-- OpcodeMapInjective: a map with a shared byte, and an injective one. -/
theorem test_witness_OpcodeMapInjective :
    (∃ k k', k ≠ k' ∧ ({ suggestedOpc with sendImmediate := 0x80 } : OpcodeMap).byte k =
      ({ suggestedOpc with sendImmediate := 0x80 } : OpcodeMap).byte k') ∧
    ∀ k k', suggestedOpc.byte k = suggestedOpc.byte k' → k = k' :=
  ⟨⟨.setAdBus, .sendImmediate, by decide, rfl⟩, (OpcodeMap.wellFormed_iff _).mp test_suggested_map_ok⟩

/-- SetAdBusCompletes, ClockByteOutCompletes, ClockByteOutSampleIndex, ClockBitOutCompletes. -/
theorem test_witness_Completes :
    oracleGrants State.reset.sinkOk 2 ∧ oracleGrants State.reset.sinkOk 4 ∧ oracleGrants State.reset.sinkOk 25 :=
  ⟨success_grants 2, success_grants 4, success_grants 25⟩

/-- SetAdBusPins (second clause), SetAdBusHighPinsUntraced: two masks that differ in the high pins only. -/
theorem test_witness_SetAdBusHighPinsUntraced :
    (0xFC : Byte).getLsbD 0 = (0x00 : Byte).getLsbD 0 ∧ (0xFC : Byte).getLsbD 1 = (0x00 : Byte).getLsbD 1 ∧
    (∃ t, exec (.setAdBus 0xFC 0xFF) (midway 0 [] 0) = .next t) ∧
    ∃ t, exec (.setAdBus 0x00 0xFF) (midway 0 [] 0) = .next t :=
  ⟨rfl, rfl, ⟨_, rfl⟩, ⟨_, rfl⟩⟩

/-- SetDivisorDiscards. -/
theorem test_witness_SetDivisorDiscards :
    ∃ (s : State) (before rest : List Byte), BlockEnabled s ∧ s.cur = before.length ∧
      s.buf = before ++ [s.opc.setDivisor, 0x05, 0x00] ++ rest :=
  ⟨{ busyOn [0x81, 0x86, 0x05, 0x00, 0x87] [] [] with cur := 1 }, [0x81], [0x87],
    ⟨test_suggested_map_ok, rfl, rfl, rfl⟩, rfl, rfl⟩

/-- AppendFailureKeepsEarlierSamples: the first and the last append of a ClockByteOut fail. -/
theorem test_witness_AppendFailureKeepsEarlierSamples :
    (0 < (synth (commandOf (.clockByteOut 0x55))).length ∧ oracleGrants { answers := [false], thereafter := true } 0 ∧
      oracleAnswer { answers := [false], thereafter := true } 0 = false) ∧
    (23 < (synth (commandOf (.clockByteOut 0x55))).length ∧
      oracleGrants { answers := List.replicate 23 true, thereafter := false } 23 ∧
      oracleAnswer { answers := List.replicate 23 true, thereafter := false } 23 = false) :=
  ⟨⟨by decide, fun _ h => absurd h (by omega), rfl⟩, by decide, by unfold oracleGrants; decide, rfl⟩

/-- FlushFailureIsSinkWriteFailure. -/
theorem test_witness_FlushFailureIsSinkWriteFailure :
    emits (Instr.setAdBus 3 3).kind = true ∧
    oracleGrants { answers := [true, false], thereafter := true } (synth (commandOf (.setAdBus 3 3))).length ∧
    oracleAnswer { answers := [true, false], thereafter := true } (synth (commandOf (.setAdBus 3 3))).length = false :=
  ⟨rfl, by unfold oracleGrants; decide, rfl⟩

/-- CommandFrame and FlushDiscipline: an emitting and a silent command. -/
theorem test_witness_CommandFrame :
    (∃ t, exec (.clockBitOut 0xFF) (midway 3 [0x03] 1) = .next t) ∧ emits (Instr.clockBitOut 0xFF).kind = true ∧
    (∃ t, exec .clockByteIn (midway 3 [0x03] 1) = .next t) ∧ emits Instr.clockByteIn.kind = false :=
  ⟨⟨_, rfl⟩, rfl, ⟨_, rfl⟩, rfl⟩

/-- StepRunsDecoded. -/
theorem test_witness_StepRunsDecoded :
    BlockEnabled (midway 3 [0x03] 1) ∧
    decode (midway 3 [0x03] 1).opc ((midway 3 [0x03] 1).buf.drop (midway 3 [0x03] 1).cur) = .ok (.clockBitOut 0xFF) :=
  ⟨⟨test_suggested_map_ok, rfl, rfl, rfl⟩, by decide⟩

/-- EndOfBufferIsDone. -/
theorem test_witness_EndOfBufferIsDone : BlockEnabled (midway 6 [] 0) ∧ (midway 6 [] 0).cur = (midway 6 [] 0).buf.length :=
  ⟨⟨test_suggested_map_ok, rfl, rfl, rfl⟩, rfl⟩

/-- DecodeErrorEntry: each of the three decode errors. -/
theorem test_witness_DecodeErrorEntry :
    BlockEnabled (busyOn [0x00] [] []) ∧ decode suggestedOpc ([0x00].drop 0) = .err .unrecognizedOpcode ∧
    BlockEnabled (busyOn [0x20, 0x01, 0x00] [] []) ∧
      decode suggestedOpc ([0x20, 0x01, 0x00].drop 0) = .err .unsupportedLength ∧
    BlockEnabled (busyOn [0x86] [] []) ∧ decode suggestedOpc ([0x86].drop 0) = .err .truncatedInput :=
  ⟨busyOn_enabled _ _, by decide, busyOn_enabled _ _, by decide, busyOn_enabled _ _, by decide⟩

/-- UnrecognizedOpcodeRaised: V-UO-1, and a byte the table has, for the other direction. -/
theorem test_witness_UnrecognizedOpcodeRaised :
    BlockEnabled (busyOn [0x00] [] []) ∧ (busyOn [0x00] [] []).buf[(busyOn [0x00] [] []).cur]? = some 0x00 ∧
    (∀ k, suggestedOpc.byte k ≠ 0x00) ∧ ¬∀ k, suggestedOpc.byte k ≠ 0x81 :=
  ⟨busyOn_enabled _ _, rfl, fun k => by cases k <;> decide, fun h => h .readStatus rfl⟩

/-- UnsupportedLengthRaised: each of the three kinds, the data byte missing. -/
theorem test_witness_UnsupportedLengthRaised :
    (∃ s : State, BlockEnabled s ∧ s.buf[s.cur]? = some (s.opc.byte .clockByteOut) ∧ lengthNonzero s .clockByteOut) ∧
    (∃ s : State, BlockEnabled s ∧ s.buf[s.cur]? = some (s.opc.byte .clockByteIn) ∧ lengthNonzero s .clockByteIn) ∧
    ∃ s : State, BlockEnabled s ∧ s.buf[s.cur]? = some (s.opc.byte .clockBitOut) ∧ lengthNonzero s .clockBitOut :=
  ⟨⟨busyOn [0x11, 0x01, 0x00] [] [], busyOn_enabled _ _, rfl, 0x01, 0x00, rfl, rfl, by decide⟩,
    ⟨busyOn [0x20, 0x00, 0x01] [] [], busyOn_enabled _ _, rfl, 0x00, 0x01, rfl, rfl, by decide⟩,
    ⟨busyOn [0x13, 0x01] [] [], busyOn_enabled _ _, rfl, 0x01, rfl, by decide⟩⟩

/-- TruncatedInputRaised: each clause of operandMissing one byte short. -/
theorem test_witness_TruncatedInputRaised :
    operandMissing (busyOn [0x80, 0x00] [] []) .setAdBus ∧ operandMissing (busyOn [0x20, 0x00] [] []) .clockByteIn ∧
    operandMissing (busyOn [0x86, 0x00] [] []) .setDivisor ∧ operandMissing (busyOn [0x11, 0x05] [] []) .clockByteOut ∧
    operandMissing (busyOn [0x11, 0x00, 0x00] [] []) .clockByteOut ∧ operandMissing (busyOn [0x13] [] []) .clockBitOut ∧
    operandMissing (busyOn [0x13, 0x00] [] []) .clockBitOut ∧ ¬operandMissing (busyOn [0x13, 0x01] [] []) .clockBitOut := by
  refine ⟨by simp [operandMissing, busyOn, State.resetWith], by simp [operandMissing, busyOn, State.resetWith],
    by simp [operandMissing, busyOn, State.resetWith], .inl ?_, .inr ⟨rfl, rfl, ?_⟩, .inl ?_, .inr ⟨rfl, ?_⟩, ?_⟩
  all_goals simp [operandMissing, busyOn, State.resetWith]

/-- TruncatedInputRaised: an enabled state at a command, for the first part, whose step raises the error, for the second. -/
theorem test_witness_TruncatedInputRaised_raises :
    BlockEnabled (busyOn [0x86] [] []) ∧ (busyOn [0x86] [] []).buf[(busyOn [0x86] [] []).cur]? =
      some ((busyOn [0x86] [] []).opc.byte .setDivisor) ∧ Raises (busyOn [0x86] [] []) .truncatedInput :=
  ⟨busyOn_enabled _ _, rfl, _, _, rfl, rfl⟩

/-- NoMoveOutsideBusy: at rest, after DONE, after an error, and after a crash. -/
theorem test_witness_NoMoveOutsideBusy :
    State.reset.opc.wellFormed = true ∧
    (State.reset.crashed = false ∧ nextTurn State.reset = .block ∧ State.reset.status ≠ .busy) ∧
    (nextTurn { midway 6 [] 0 with status := .done } = .block ∧
      ({ midway 6 [] 0 with status := .done } : State).status ≠ .busy) ∧
    (nextTurn { midway 3 [] 0 with status := .error .truncatedInput 3 } = .block ∧
      ({ midway 3 [] 0 with status := .error .truncatedInput 3 } : State).status ≠ .busy) ∧
    (({ midway 3 [] 0 with crashed := true } : State).crashed = true ∧
      nextTurn { midway 3 [] 0 with crashed := true } ≠ .processReset) :=
  ⟨test_suggested_map_ok, ⟨rfl, rfl, by decide⟩, ⟨rfl, by decide⟩, ⟨rfl, by decide⟩, rfl, by decide⟩

/-- CursorMovesForward. -/
theorem test_witness_CursorMovesForward :
    BlockEnabled (midway 3 [0x03] 1) ∧ ∃ t, step (midway 3 [0x03] 1) = .next t ∧ t.status = .busy :=
  ⟨⟨test_suggested_map_ok, rfl, rfl, rfl⟩, _, rfl, rfl⟩

/-- StepDependsOnRemainingBytes: two states with the same bytes to come. -/
theorem test_witness_StepDependsOnRemainingBytes :
    ∃ s s' t : State, BlockEnabled s ∧ BlockEnabled s' ∧ s.cur ≤ s.buf.length ∧ s'.cur ≤ s'.buf.length ∧
      s.buf.drop s.cur = s'.buf.drop s'.cur ∧ s.opc = s'.opc ∧ s.sinkOk = s'.sinkOk ∧ step s = .next t ∧ s ≠ s' :=
  ⟨midway 3 [0x03] 1, busyOn [0x13, 0x00, 0xFF] [] [], _, ⟨test_suggested_map_ok, rfl, rfl, rfl⟩, busyOn_enabled _ _,
    by decide, by decide, rfl, rfl, rfl, rfl, by decide⟩

/-- StartBeginsInvocation: from IDLE with the empty buffer, and while BUSY. -/
theorem test_witness_StartBeginsInvocation :
    (∃ s : State, s.opc.wellFormed = true ∧ nextTurn s = .start [] ∧ s.crashed = false ∧ s.status ≠ .busy) ∧
    ∃ s : State, s.opc.wellFormed = true ∧ nextTurn s = .start [0x87] ∧ s.crashed = false ∧ s.status = .busy :=
  ⟨⟨{ State.reset with turns := [.start []] }, test_suggested_map_ok, rfl, rfl, by decide⟩,
    ⟨busyOn [0x81] [] [.start [0x87]], test_suggested_map_ok, rfl, rfl, rfl⟩⟩

/-- ProcessResetEverywhere: while BUSY. -/
theorem test_witness_ProcessResetEverywhere :
    (busyOn [0x81] [] [.processReset]).opc.wellFormed = true ∧ nextTurn (busyOn [0x81] [] [.processReset]) = .processReset :=
  ⟨test_suggested_map_ok, rfl⟩

/-- CrashInsideStep: keeping nothing of the burst, all of it, and one sample more than there is. -/
theorem test_witness_CrashInsideStep (keep : Nat) (hk : keep = 0 ∨ keep = 3 ∨ keep = 4) :
    ∃ s : State, s.opc.wellFormed = true ∧ nextTurn s = .crash true keep ∧ s.crashed = false ∧ s.status = .busy ∧
      decode s.opc (s.buf.drop s.cur) = .ok (.clockBitOut 0x00) ∧
      ((s.durable ≤ keep ∧ keep ≤ s.sink.length + (synth (commandOf (.clockBitOut 0x00))).length) ↔ keep ≠ 4) := by
  refine ⟨busyOn [0x13, 0x00, 0x00] [] [.crash true keep], test_suggested_map_ok, rfl, rfl, rfl, rfl, ?_⟩
  obtain rfl | rfl | rfl := hk <;> decide

/-- CrashBetweenSteps, between steps: the only point of the empty sink, and one beyond. -/
theorem test_witness_CrashBetweenSteps (keep : Nat) (hk : keep = 0 ∨ keep = 1) :
    ∃ s : State, s.opc.wellFormed = true ∧ nextTurn s = .crash false keep ∧ s.crashed = false ∧
      ((s.durable ≤ keep ∧ keep ≤ s.sink.length) ↔ keep = 0) := by
  refine ⟨busyOn [] [] [.crash false keep], test_suggested_map_ok, rfl, rfl, ?_⟩
  obtain rfl | rfl := hk <;> decide

/-- CrashBetweenSteps, inside a step without samples: at the end of the buffer, at a decode error, in a silent command, and
outside BUSY; both ends of the bounds, and one beyond. -/
theorem test_witness_CrashInsideSilentStep (buffer : List Byte) (status : Status) (keep : Nat)
    (hb : (buffer = [] ∨ buffer = [0x00] ∨ buffer = [0x20, 0x00, 0x00]) ∧ status = .busy ∨ buffer = [] ∧ status = .idle)
    (hk : keep = 1 ∨ keep = 2 ∨ keep = 3) :
    ∃ s : State, s.opc.wellFormed = true ∧ nextTurn s = .crash true keep ∧ s.crashed = false ∧ s.buf = buffer ∧
      s.status = status ∧ samplesInFlight s = [] ∧ ((s.durable ≤ keep ∧ keep ≤ s.sink.length) ↔ keep ≠ 3) := by
  refine ⟨{ busyOn buffer [] [.crash true keep] with status := status, sink := [0x03, 0x02], durable := 1 },
    test_suggested_map_ok, rfl, rfl, rfl, rfl, ?_, ?_⟩
  · obtain ⟨rfl | rfl | rfl, rfl⟩ | ⟨rfl, rfl⟩ := hb <;> rfl
  · obtain rfl | rfl | rfl := hk <;> simp

/-- CloseFlushes: granted, denied, and while BUSY. -/
theorem test_witness_CloseFlushes :
    (∃ s : State, s.opc.wellFormed = true ∧ nextTurn s = .close ∧ s.crashed = false ∧ s.status ≠ .busy ∧
      oracleAnswer s.sinkOk 0 = true) ∧
    (∃ s : State, s.opc.wellFormed = true ∧ nextTurn s = .close ∧ s.crashed = false ∧ s.status ≠ .busy ∧
      oracleAnswer s.sinkOk 0 = false) ∧
    ∃ s : State, s.opc.wellFormed = true ∧ nextTurn s = .close ∧ s.crashed = false ∧ s.status = .busy :=
  ⟨⟨{ State.reset with turns := [.close] }, test_suggested_map_ok, rfl, rfl, by decide, rfl⟩,
    ⟨{ busyOn [] [false] [.close] with status := .done }, test_suggested_map_ok, rfl, rfl, by decide, rfl⟩,
    ⟨busyOn [] [] [.close], test_suggested_map_ok, rfl, rfl, rfl⟩⟩

/-- UnknownFirstByte. -/
theorem test_witness_UnknownFirstByte :
    State.reset.opc.wellFormed = true ∧ State.reset.crashed = false ∧ State.reset.status ≠ .busy ∧
    ({ State.reset with turns := [.start [0x00]] } : State).turns = [.start (0x00 :: [])] ∧
    ∀ k, suggestedOpc.byte k ≠ 0x00 :=
  ⟨test_suggested_map_ok, rfl, by decide, rfl, fun k => by cases k <;> decide⟩

/-- A legal state in the middle of an invocation, for StepKeepsLegal, DurableNeverLost and NothingRetracted. -/
theorem test_witness_Legal :
    (midway 3 [0x03] 1).Legal ∧ nextTurn (midway 3 [0x03] 1) = .block ∧ ∃ t, step (midway 3 [0x03] 1) = .next t :=
  ⟨⟨test_suggested_map_ok, by decide, by decide, trivial, fun h => by cases h⟩, rfl, _, rfl⟩

/-- SinkAppendOnly, BufferAndMapConstant: a step of the block, a reset, a crash. -/
theorem test_witness_SinkAppendOnly :
    (∃ t, step (midway 3 [0x03] 1) = .next t) ∧ (∃ t, step (busyOn [0x81] [] [.processReset]) = .next t) ∧
    ∃ t, step (busyOn [0x80, 0x03, 0x03] [] [.crash true 1]) = .next t :=
  ⟨⟨_, rfl⟩, ⟨_, rfl⟩, ⟨_, rfl⟩⟩

/-- ResetLegal. -/
theorem test_witness_ResetLegal : (State.resetWith suggestedOpc { answers := [], thereafter := false } []).opc.wellFormed = true :=
  test_suggested_map_ok

/-- StepKeepsLogPrecise: after the first command of an invocation. -/
theorem test_witness_LogPrecise :
    ∃ s t : State, s.Legal ∧ s.LogPrecise ∧ s.cmdLog ≠ [] ∧ step s = .next t :=
  ⟨{ midway 3 [0x03] 1 with cmdLog := [commandOf (.setAdBus 3 3)] }, _,
    ⟨test_suggested_map_ok, by decide, by decide, trivial, fun h => by cases h⟩, ⟨[.setAdBus 3 3], rfl, rfl⟩, by simp, rfl⟩

/-- StepKeepsTrace: the block, the final flush, and a Start. -/
theorem test_witness_Trace :
    TraceSince [0x02] { midway 3 [0x02, 0x03] 1 with cmdLog := [commandOf (.setAdBus 3 3)] } ∧
    (∃ t, step { midway 3 [0x02, 0x03] 1 with cmdLog := [commandOf (.setAdBus 3 3)] } = .next t) ∧
    (TraceSince [] { State.reset with turns := [.close] } ∧ ∃ t, step { State.reset with turns := [.close] } = .next t) ∧
    ∃ t, step { State.reset with turns := [.start [0x81]] } = .next t :=
  ⟨rfl, ⟨_, rfl⟩, ⟨rfl, _, rfl⟩, _, rfl⟩

/-- InvocationEnds. -/
theorem test_witness_InvocationEnds :
    BlockEnabled (busyOn [0x80, 0x00] [false] []) ∧ (busyOn [0x80, 0x00] [false] []).turns = [] ∧
    (busyOn [0x80, 0x00] [false] []).cur ≤ (busyOn [0x80, 0x00] [false] []).buf.length :=
  ⟨busyOn_enabled _ _, rfl, by decide⟩

/-- CleanInvocation, CleanExactlyConcatenations: W3's buffer, and the empty one. -/
theorem test_witness_CleanInvocation :
    (∃ s : State, Undisturbed s ∧ s.cur = 0 ∧ s.cmdLog = [] ∧
      s.buf = [Instr.setAdBus 0x00 0x03, .clockByteOut 0x55, .clockBitOut 0xFF].flatMap (encode s.opc)) ∧
    ∃ s : State, Undisturbed s ∧ s.cur = 0 ∧ s.cmdLog = [] ∧ s.buf = ([] : List Instr).flatMap (encode s.opc) :=
  ⟨⟨busyOn [0x80, 0x00, 0x03, 0x11, 0x00, 0x00, 0x55, 0x13, 0x00, 0xFF] [] [], busyOn_undisturbed _, rfl, rfl, rfl⟩,
    ⟨busyOn [] [] [], busyOn_undisturbed _, rfl, rfl, rfl⟩⟩

/-- TruncationIsReported: W9. -/
theorem test_witness_TruncationIsReported :
    ∃ s : State, Undisturbed s ∧ s.cur = 0 ∧ s.cmdLog = [] ∧ 1 < (Instr.clockBitOut 0xFF).size ∧
      s.buf = [Instr.setAdBus 0x00 0x03, .clockByteOut 0x55].flatMap (encode s.opc)
        ++ (encode s.opc (.clockBitOut 0xFF)).dropLast :=
  ⟨busyOn [0x80, 0x00, 0x03, 0x11, 0x00, 0x00, 0x55, 0x13, 0x00] [] [], busyOn_undisturbed _, rfl, rfl, by decide, rfl⟩

end Sys2Proof.Machine.Tests
end

section
/-! PROOFS. The family 30_encoding.md: the lookup of an opcode byte and the operands of SetAdBus. -/

namespace Sys2Proof

/-- What the lookup finds has the byte, under every map. -/
theorem OpcodeMap.byte_of_kind?_eq_some {opc : OpcodeMap} {op : Byte} {k : Kind} (h : opc.kind? op = some k) :
    opc.byte k = op := by
  have hp := List.find?_some h
  exact beq_iff_eq.mp hp

/-- The lookup finds nothing exactly when no kind has the byte, under every map. -/
theorem OpcodeMap.kind?_eq_none_iff {opc : OpcodeMap} {op : Byte} :
    opc.kind? op = none ↔ ∀ k, opc.byte k ≠ op := by
  simp [OpcodeMap.kind?, Kind.mem_all]

/-- Under an injective map the lookup finds a kind exactly when that kind has the byte (30_encoding.md R69). -/
theorem OpcodeMap.kind?_eq_some_iff {opc : OpcodeMap} (hw : opc.wellFormed = true) {op : Byte} {k : Kind} :
    opc.kind? op = some k ↔ opc.byte k = op := by
  refine ⟨OpcodeMap.byte_of_kind?_eq_some, fun hk => ?_⟩
  cases hf : opc.kind? op with
  | none => exact absurd hk (OpcodeMap.kind?_eq_none_iff.mp hf k)
  | some k' =>
    have hbyte : opc.byte k' = opc.byte k := (OpcodeMap.byte_of_kind?_eq_some hf).trans hk.symm
    rw [OpcodeMap.byte_injective hw hbyte]

/-- Under an injective map the opcode byte of a kind selects the decoder of that kind's operands (R69, R70). -/
theorem decode_byte_cons {opc : OpcodeMap} (hw : opc.wellFormed = true) (k : Kind) (operands : List Byte) :
    decode opc (opc.byte k :: operands) = decodeOperands k operands := by
  simp [decode, (OpcodeMap.kind?_eq_some_iff hw).mpr rfl]

/-- Settles O2: the lookup takes the first kind with the byte, and injectivity makes it the only one. -/
theorem kindLookup : Obligations.KindLookup :=
  fun _ _ hw => ⟨fun _ => OpcodeMap.kind?_eq_some_iff hw, OpcodeMap.kind?_eq_none_iff⟩

end Sys2Proof

namespace Sys2Proof.Machine

/-- Descriptor `i` of the pin vector is built from bit `i` of each mask (10_state.md R28). -/
theorem pinsOf_getElem (v d : Byte) (i : Nat) (h : i < 8) : (pinsOf v d)[i] = pinOf v d i := by
  match i, h with
  | 0, _ | 1, _ | 2, _ | 3, _ | 4, _ | 5, _ | 6, _ | 7, _ => rfl

/-- A direction bit says output exactly when it is set (10_state.md R28). -/
theorem directionOf_eq_output_iff (bit : Bool) : directionOf bit = .output ↔ bit = true := by
  cases bit <;> simp [directionOf]

/-- Every command logs its value, whether or not the sink takes its samples (10_state.md R26, R33). -/
theorem exec_cmdLog {i : Instr} {s t : State} (h : exec i s = .next t) :
    t.cmdLog = s.cmdLog ++ [commandOf i] := by
  obtain rfl := Host.Outcome.next.inj ((exec_eq_perform i s).symm.trans h)
  obtain ⟨-, -, -, -, hlog⟩ := perform_frame (commandOf i) i.size s
  exact hlog

/-- Settles O8: the opcode byte selects the pin decoder, which accepts any two bytes; the logged vector is `pinsOf`. -/
theorem setAdBusPins : Obligations.SetAdBusPins := by
  refine ⟨fun opc v d rest hw => decode_byte_cons hw .setAdBus (v :: d :: rest), fun v d s t h => ?_⟩
  refine ⟨pinsOf v d, exec_cmdLog h, fun i hi => ?_⟩
  rw [pinsOf_getElem v d i hi]
  exact ⟨rfl, directionOf_eq_output_iff _⟩

end Sys2Proof.Machine
end

section
/-! PROOFS. The family 40_pin_commands.md: what the direction mask and the pins 2 to 7 of SetAdBus do not reach. -/

namespace Sys2Proof.Machine

/-- A sample in form has bits 7:2 zero (20_memory.md R49). -/
theorem getLsbD_of_sampleOk {b : Byte} (h : sampleOk b = true) {j : Nat} (hj : 2 ≤ j) : b.getLsbD j = false := by
  have hbit := congrArg (BitVec.getLsbD · (j - 2)) (beq_iff_eq.mp h)
  simpa [Nat.add_sub_cancel' hj] using hbit

/-- Commands with the same samples do the same to everything but the log, whatever the sink answers (10_state.md R33,
R34). -/
theorem perform_eq_of_synth_eq {cmd cmd' : Command} (size : Nat) (s : State) (h : synth cmd' = synth cmd) :
    perform cmd' size s = { perform cmd size s with cmdLog := s.cmdLog ++ [cmd'] } := by
  by_cases h0 : synth cmd = []
  · rw [perform_silent size s h0, perform_silent size s (h.trans h0)]
  · have h0' : synth cmd' ≠ [] := h ▸ h0
    obtain hg | ⟨j, hj, hg, hf⟩ := oracle_grants_or_first_failure s.sinkOk ((synth cmd).length + 1)
    · rw [perform_granted size s h0 hg, perform_granted size s h0' (h ▸ hg), h]
    · obtain hlt | rfl := Nat.lt_succ_iff_lt_or_eq.mp hj
      · rw [perform_append_denied size s j hlt hg hf, perform_append_denied size s j (h ▸ hlt) hg hf, h]
      · rw [perform_flush_denied size s h0 hg hf, perform_flush_denied size s h0' (h ▸ hg) (h ▸ hf), h]

/-- Commands of one size with the same samples give the same outcome but for the log. -/
theorem exec_eq_of_synth_eq {i i' : Instr} {s t t' : State} (h : exec i s = .next t) (h' : exec i' s = .next t')
    (hsize : i'.size = i.size) (hsynth : synth (commandOf i') = synth (commandOf i)) :
    t' = { t with cmdLog := t'.cmdLog } := by
  obtain rfl := Host.Outcome.next.inj ((exec_eq_perform i s).symm.trans h)
  obtain rfl := Host.Outcome.next.inj ((exec_eq_perform i' s).symm.trans h')
  rw [hsize, perform_eq_of_synth_eq i.size s hsynth]

/-- The sample of SetAdBus is made of bits 1 and 0 of the value mask; no direction bit is read (40_pin_commands.md R91,
R92). -/
theorem synth_setAdBus (v d : Byte) :
    synth (commandOf (.setAdBus v d)) = [sampleOf (v.getLsbD 1) (v.getLsbD 0)] := rfl

/-- Value masks that agree on bits 0 and 1 have the same sample, under any two direction masks (R92, R93). -/
theorem synth_setAdBus_congr {v v' : Byte} (d d' : Byte) (h0 : v.getLsbD 0 = v'.getLsbD 0)
    (h1 : v.getLsbD 1 = v'.getLsbD 1) :
    synth (commandOf (.setAdBus v' d')) = synth (commandOf (.setAdBus v d)) := by
  rw [synth_setAdBus, synth_setAdBus, h0, h1]

/-- A command appends a front part of its samples to the sink (20_memory.md R52, 10_state.md R33). -/
theorem exec_sink {i : Instr} {s t : State} (h : exec i s = .next t) :
    ∃ l, l <+: synth (commandOf i) ∧ t.sink = s.sink ++ l := by
  obtain rfl := Host.Outcome.next.inj ((exec_eq_perform i s).symm.trans h)
  obtain ⟨-, he⟩ | ⟨-, he⟩ | ⟨j, -, -, he⟩ := perform_cases (commandOf i) i.size s <;> rw [he]
  · exact ⟨[], List.nil_prefix, (List.append_nil _).symm⟩
  · exact ⟨_, List.prefix_rfl, rfl⟩
  · exact ⟨_, List.take_prefix j _, rfl⟩

/-- Every sample that a command appends has bits 7:2 zero (20_memory.md R53). -/
theorem exec_new_sample_ok {i : Instr} {s t : State} (h : exec i s = .next t) {a : Nat} {x : Byte}
    (ha : s.sink.length ≤ a) (hx : t.sink[a]? = some x) : sampleOk x = true := by
  obtain ⟨l, hl, hsink⟩ := exec_sink h
  rw [hsink, List.getElem?_append_right ha] at hx
  exact List.all_eq_true.mp (synth_ok _) x (hl.subset (List.mem_of_getElem? hx))

/-- Settles O9: the two commands have the same sample, and only their log entries differ. -/
theorem setAdBusDirectionInformative : Obligations.SetAdBusDirectionInformative := by
  intro v d d' s
  have ht := exec_eq_perform (.setAdBus v d) s
  have ht' := exec_eq_perform (.setAdBus v d') s
  exact ⟨_, _, ht, ht', exec_eq_of_synth_eq ht ht' rfl (synth_setAdBus_congr d d' rfl rfl)⟩

/-- Settles O10: the sink follows the sample, which reads pins 0 and 1 only; the log holds all eight pins. -/
theorem setAdBusHighPinsUntraced : Obligations.SetAdBusHighPinsUntraced := by
  intro v v' d s t t' h0 h1 ht ht'
  refine ⟨?_, ⟨pinsOf v d, exec_cmdLog ht, fun i hi _ => ?_⟩, fun a x ha hx j hj => ?_⟩
  · have heq := exec_eq_of_synth_eq ht ht' rfl (synth_setAdBus_congr d d h0 h1)
    exact (congrArg State.sink heq).symm
  · exact congrArg Pin.value (pinsOf_getElem v d i hi)
  · exact getLsbD_of_sampleOk (exec_new_sample_ok ht ha hx) hj

end Sys2Proof.Machine
end

section
/-! PROOFS. The family 41_clocked_transfers.md: the clocked command that has no samples. -/

namespace Sys2Proof.Machine

/-- A command of a kind without samples completes in every state: it only logs its value and advances (20_memory.md R56,
10_state.md R33). -/
theorem exec_silent {i : Instr} (s : State) (h : emits i.kind = false) :
    exec i s = .next { s with cmdLog := s.cmdLog ++ [commandOf i], cur := s.cur + i.size } := by
  rw [exec_eq_perform, perform_silent i.size s ((synth_commandOf_eq_nil_iff i).mpr h)]

/-- Settles O14: ClockByteIn is of a kind without samples, so nothing is asked of the sink. -/
theorem clockByteInCompletes : Obligations.ClockByteInCompletes :=
  ⟨(synth_commandOf_eq_nil_iff .clockByteIn).mpr rfl, fun s => exec_silent (i := .clockByteIn) s rfl⟩

end Sys2Proof.Machine
end

section
/-! PROOFS. The family 42_ignored_commands.md: the four commands that are logged and otherwise ignored. -/

namespace Sys2Proof.Machine

/-- Settles O15: no Ignored command has samples, so each of the four kinds completes silently, whatever the sink would
answer. -/
theorem ignoredComplete : Obligations.IgnoredComplete := by
  refine ⟨fun _ => rfl, fun s => ⟨?readStatus, ?disableLoopback, ?sendImmediate, fun x0 x1 => ?setDivisor⟩⟩
  case readStatus => exact exec_silent (i := .readStatus) s rfl
  case disableLoopback => exact exec_silent (i := .disableLoopback) s rfl
  case sendImmediate => exact exec_silent (i := .sendImmediate) s rfl
  case setDivisor => exact exec_silent (i := .setDivisor x0 x1) s rfl

end Sys2Proof.Machine
end

section
/-! PROOFS. The family 60_exceptions.md: which error of decoding the block's step raises, and when. -/

namespace Sys2Proof

/-- The two mask bytes of SetAdBus can only be missing (40_pin_commands.md R90). -/
theorem decodePins_eq_err {operands : List Byte} {code : ErrorCode} (h : decodePins operands = .err code) :
    code = .truncatedInput := by
  match operands with
  | [] | [_] => exact (Decoded.err.inj h).symm
  | _ :: _ :: _ => cases h

/-- The two bytes of SetDivisor can only be missing (42_ignored_commands.md R118). -/
theorem decodeDivisor_eq_err {operands : List Byte} {code : ErrorCode} (h : decodeDivisor operands = .err code) :
    code = .truncatedInput := by
  match operands with
  | [] | [_] => exact (Decoded.err.inj h).symm
  | _ :: _ :: _ => cases h

/-- Operands never make the opcode byte unknown (60_exceptions.md R126). -/
theorem decodeOperands_ne_unrecognizedOpcode (k : Kind) (operands : List Byte) :
    decodeOperands k operands ≠ .err .unrecognizedOpcode := by
  intro h
  cases k
  case setAdBus => cases decodePins_eq_err h
  case setDivisor => cases decodeDivisor_eq_err h
  case readStatus | disableLoopback | sendImmediate => cases h
  case clockByteOut | clockByteIn | clockBitOut =>
    simp only [decodeOperands, decodeByteOut.eq_def, decodeByteIn.eq_def, decodeBitOut.eq_def] at h
    repeat' split at h
    all_goals cases h

/-- Decoding finds the opcode byte unknown exactly when no kind has it, whatever bytes follow (R126). -/
theorem decode_cons_eq_unrecognizedOpcode_iff {opc : OpcodeMap} {op : Byte} {operands : List Byte} :
    decode opc (op :: operands) = .err .unrecognizedOpcode ↔ ∀ k, opc.byte k ≠ op := by
  rw [← OpcodeMap.kind?_eq_none_iff, decode]
  cases opc.kind? op with
  | none => simp
  | some k => simp [decodeOperands_ne_unrecognizedOpcode]

/-- ClockByteOut refuses its length exactly when both length bytes are there and not both zero: the data byte is looked at
later (60_exceptions.md R127). -/
theorem decodeByteOut_eq_unsupportedLength_iff (operands : List Byte) :
    decodeByteOut operands = .err .unsupportedLength ↔
      ∃ lo hi, operands[0]? = some lo ∧ operands[1]? = some hi ∧ ¬(lo = 0 ∧ hi = 0) := by
  match operands with
  | [] | [_] => simp [decodeByteOut]
  | [_, _] | _ :: _ :: _ :: _ => simp [decodeByteOut, lengthOk_length16]

/-- ClockByteIn refuses its length exactly when both length bytes are there and not both zero (R127). -/
theorem decodeByteIn_eq_unsupportedLength_iff (operands : List Byte) :
    decodeByteIn operands = .err .unsupportedLength ↔
      ∃ lo hi, operands[0]? = some lo ∧ operands[1]? = some hi ∧ ¬(lo = 0 ∧ hi = 0) := by
  match operands with
  | [] | [_] => simp [decodeByteIn]
  | _ :: _ :: _ => simp [decodeByteIn, lengthOk_length16]

/-- ClockBitOut refuses its length exactly when its length byte is there and not zero: the operand byte is looked at later
(R127). -/
theorem decodeBitOut_eq_unsupportedLength_iff (operands : List Byte) :
    decodeBitOut operands = .err .unsupportedLength ↔ ∃ len, operands[0]? = some len ∧ len ≠ 0 := by
  match operands with
  | [] => simp [decodeBitOut]
  | [_] | _ :: _ :: _ => simp [decodeBitOut, bitLengthOk_iff]

end Sys2Proof

namespace Sys2Proof.Machine

/-- With a byte at the cursor, what the decoder reads is this byte and the bytes after it (30_encoding.md R84). -/
theorem fetchBytes_eq_cons {s : State} {op : Byte} (h : s.buf[s.cur]? = some op) :
    fetchBytes s = op :: s.buf.drop (s.cur + 1) := by
  obtain ⟨hlt, rfl⟩ := List.getElem?_eq_some_iff.mp h
  exact List.drop_eq_getElem_cons hlt

/-- A command leaves the status alone or reports a failure of the sink; it raises no error of decoding (60_exceptions.md
R130). -/
theorem perform_status (cmd : Command) (size : Nat) (s : State) :
    (perform cmd size s).status = s.status ∨ (perform cmd size s).status = .error .sinkWriteFailure s.cur := by
  obtain ⟨-, he⟩ | ⟨-, he⟩ | ⟨_, -, -, he⟩ := perform_cases cmd size s <;> rw [he]
  · exact .inl rfl
  · exact .inl rfl
  · exact .inr rfl

/-- Under an enabled step, a decode error at the cursor is the block's step into ERROR (60_exceptions.md R128). -/
theorem step_of_decode_err {s : State} {code : ErrorCode} (hs : BlockEnabled s)
    (hd : decode s.opc (fetchBytes s) = .err code) : step s = .next (raiseError code (popTurn s)) := by
  have hcur : s.cur ≠ s.buf.length := by
    intro hc
    simp [fetchBytes, hc, decode] at hd
  rw [step_block hs.opcode hs.turn]
  simp [blockStep, hs.alive, hs.busy, hcur, hd]

/-- An enabled step raises an error other than a sink failure exactly when decoding at the cursor answers it
(60_exceptions.md R125, R128). -/
theorem raises_iff_decode_err {s : State} {code : ErrorCode} (hs : BlockEnabled s) (hcode : code ≠ .sinkWriteFailure) :
    Raises s code ↔ decode s.opc (fetchBytes s) = .err code := by
  refine ⟨fun ⟨t, offset, hstep, hstatus⟩ => ?_, fun hd => ⟨_, _, step_of_decode_err hs hd, rfl⟩⟩
  rw [step_block hs.opcode hs.turn] at hstep
  obtain ⟨-, hbusy, ⟨-, rfl⟩ | ⟨-, code', hd, rfl⟩ | ⟨-, i, -, rfl⟩⟩ := blockStep_cases hstep
  · cases hstatus
  · cases hstatus
    exact hd
  · obtain he | he := perform_status (commandOf i) i.size (popTurn s)
    · cases hbusy.symm.trans (he.symm.trans hstatus)
    · cases he.symm.trans hstatus
      exact absurd rfl hcode

/-- The length field at the cursor is complete and nonzero exactly when decoding the bytes after the opcode byte refuses it
(60_exceptions.md R127). -/
theorem lengthNonzero_iff_decodeOperands (s : State) (k : Kind) :
    lengthNonzero s k ↔ decodeOperands k (s.buf.drop (s.cur + 1)) = .err .unsupportedLength := by
  cases k
  case clockByteOut => simp [lengthNonzero, decodeOperands, decodeByteOut_eq_unsupportedLength_iff, Nat.add_assoc]
  case clockByteIn => simp [lengthNonzero, decodeOperands, decodeByteIn_eq_unsupportedLength_iff, Nat.add_assoc]
  case clockBitOut => simp [lengthNonzero, decodeOperands, decodeBitOut_eq_unsupportedLength_iff]
  case setAdBus => exact ⟨False.elim, fun h => nomatch decodePins_eq_err h⟩
  case setDivisor => exact ⟨False.elim, fun h => nomatch decodeDivisor_eq_err h⟩
  case readStatus | disableLoopback | sendImmediate => exact ⟨False.elim, fun h => nomatch h⟩

/-- Settles O24: the step raises what decoding answers, and decoding answers this error only where the table has no row. -/
theorem unrecognizedOpcodeRaised : Obligations.UnrecognizedOpcodeRaised := by
  intro s op hs hop
  rw [raises_iff_decode_err hs (by decide), fetchBytes_eq_cons hop, decode_cons_eq_unrecognizedOpcode_iff]

/-- Settles O25: the step raises what decoding answers, and the table sends the opcode byte to its own kind's operands. -/
theorem unsupportedLengthRaised : Obligations.UnsupportedLengthRaised := by
  intro s k hs hop
  rw [raises_iff_decode_err hs (by decide), fetchBytes_eq_cons hop, decode_byte_cons hs.opcode,
    lengthNonzero_iff_decodeOperands]

end Sys2Proof.Machine
end

section
/-! PROOFS. The encoding: the decoder undoes the encoder, and its checks come in the order of R132
(30_encoding.md R65 to R86). -/

namespace Sys2Proof

/-- The operand decoder of a command's kind reads the command back from its operand bytes, whatever bytes follow
(30_encoding.md R71, R86). -/
theorem decodeOperands_operandBytes (i : Instr) (rest : List Byte) :
    decodeOperands i.kind (i.operandBytes ++ rest) = .ok i := by
  cases i <;> rfl

/-- Settles O3: the opcode byte selects the kind's operand decoder, which undoes the operand bytes. -/
theorem decodeEncode : Obligations.DecodeEncode := by
  intro opc i rest hw
  exact (decode_byte_cons hw i.kind (i.operandBytes ++ rest)).trans (decodeOperands_operandBytes i rest)

/-- What the pin format accepts (30_encoding.md R73). -/
theorem decodePins_eq_ok {operands : List Byte} {i : Instr} (h : decodePins operands = .ok i) :
    ∃ v d rest, operands = v :: d :: rest ∧ i = .setAdBus v d := by
  match operands with
  | [] | [_] => cases h
  | v :: d :: rest => exact ⟨v, d, rest, rfl, (Decoded.ok.inj h).symm⟩

/-- What the format of ClockByteOut accepts: a zero length field and a data byte (R74, R83). -/
theorem decodeByteOut_eq_ok {operands : List Byte} {i : Instr} (h : decodeByteOut operands = .ok i) :
    ∃ b rest, operands = 0 :: 0 :: b :: rest ∧ i = .clockByteOut b := by
  match operands with
  | [] | [_] => cases h
  | [_, _] => rw [decodeByteOut] at h; split at h <;> cases h
  | lo :: hi :: b :: rest =>
    simp only [decodeByteOut, lengthOk_length16, ite_eq_iff', reduceCtorEq, imp_false, not_not] at h
    obtain ⟨hok, rfl, rfl⟩ := h
    exact ⟨b, rest, rfl, (Decoded.ok.inj (hok ⟨rfl, rfl⟩)).symm⟩

/-- What the format of ClockByteIn accepts: a zero length field (R75, R83). -/
theorem decodeByteIn_eq_ok {operands : List Byte} {i : Instr} (h : decodeByteIn operands = .ok i) :
    ∃ rest, operands = 0 :: 0 :: rest ∧ i = .clockByteIn := by
  match operands with
  | [] | [_] => cases h
  | lo :: hi :: rest =>
    simp only [decodeByteIn, lengthOk_length16, ite_eq_iff', reduceCtorEq, imp_false, not_not] at h
    obtain ⟨hok, rfl, rfl⟩ := h
    exact ⟨rest, rfl, (Decoded.ok.inj (hok ⟨rfl, rfl⟩)).symm⟩

/-- What the format of ClockBitOut accepts: a zero length byte and an operand byte (R76, R83). -/
theorem decodeBitOut_eq_ok {operands : List Byte} {i : Instr} (h : decodeBitOut operands = .ok i) :
    ∃ x rest, operands = 0 :: x :: rest ∧ i = .clockBitOut x := by
  match operands with
  | [] => cases h
  | [_] => rw [decodeBitOut] at h; split at h <;> cases h
  | len :: x :: rest =>
    simp only [decodeBitOut, bitLengthOk_iff, ite_eq_iff', reduceCtorEq, imp_false, not_not] at h
    obtain ⟨hok, rfl⟩ := h
    exact ⟨x, rest, rfl, (Decoded.ok.inj (hok rfl)).symm⟩

/-- What the format of SetDivisor accepts (R78). -/
theorem decodeDivisor_eq_ok {operands : List Byte} {i : Instr} (h : decodeDivisor operands = .ok i) :
    ∃ x0 x1 rest, operands = x0 :: x1 :: rest ∧ i = .setDivisor x0 x1 := by
  match operands with
  | [] | [_] => cases h
  | x0 :: x1 :: rest => exact ⟨x0, x1, rest, rfl, (Decoded.ok.inj h).symm⟩

/-- Operands that decode to a command of kind `k` begin with that command's operand bytes. -/
theorem operandBytes_of_decodeOperands_eq_ok {k : Kind} {operands : List Byte} {i : Instr}
    (h : decodeOperands k operands = .ok i) : i.kind = k ∧ ∃ rest, operands = i.operandBytes ++ rest := by
  cases k
  case setAdBus =>
    obtain ⟨v, d, rest, rfl, rfl⟩ := decodePins_eq_ok h
    exact ⟨rfl, rest, rfl⟩
  case clockByteOut =>
    obtain ⟨b, rest, rfl, rfl⟩ := decodeByteOut_eq_ok h
    exact ⟨rfl, rest, rfl⟩
  case clockByteIn =>
    obtain ⟨rest, rfl, rfl⟩ := decodeByteIn_eq_ok h
    exact ⟨rfl, rest, rfl⟩
  case clockBitOut =>
    obtain ⟨x, rest, rfl, rfl⟩ := decodeBitOut_eq_ok h
    exact ⟨rfl, rest, rfl⟩
  case setDivisor =>
    obtain ⟨x0, x1, rest, rfl, rfl⟩ := decodeDivisor_eq_ok h
    exact ⟨rfl, rest, rfl⟩
  case readStatus | disableLoopback | sendImmediate =>
    obtain rfl := Decoded.ok.inj h
    exact ⟨rfl, operands, rfl⟩

/-- Settles O4: the lookup gives back the opcode byte, the accepted operands give back the operand bytes. -/
theorem encodeDecode : Obligations.EncodeDecode := by
  intro opc bytes i h
  match bytes with
  | [] => cases h
  | op :: operands =>
    cases hk : opc.kind? op with
    | none => simp [decode, hk] at h
    | some k =>
      simp only [decode, hk] at h
      obtain ⟨rfl, rest, rfl⟩ := operandBytes_of_decodeOperands_eq_ok h
      exact ⟨rest, by rw [encode, OpcodeMap.byte_of_kind?_eq_some hk, List.cons_append]⟩

/-! ### The order of the checks, one format at a time (60_exceptions.md R132) -/

theorem decodePins_checks (operands : List Byte) :
    decodePins operands =
      if h : 2 ≤ operands.length then .ok (.setAdBus operands[0] operands[1]) else .err .truncatedInput := by
  match operands with
  | [] | [_] | _ :: _ :: _ => simp [decodePins]

theorem decodeByteOut_checks (operands : List Byte) :
    decodeByteOut operands =
      if h : 2 ≤ operands.length then
        if operands[0] ≠ 0 ∨ operands[1] ≠ 0 then .err .unsupportedLength
        else if h' : 3 ≤ operands.length then .ok (.clockByteOut operands[2]) else .err .truncatedInput
      else .err .truncatedInput := by
  match operands with
  | [] | [_] => simp [decodeByteOut]
  | [_, _] | _ :: _ :: _ :: _ => simp [decodeByteOut, lengthOk_length16, ← not_and_or, -not_and]

theorem decodeByteIn_checks (operands : List Byte) :
    decodeByteIn operands =
      if h : 2 ≤ operands.length then
        if operands[0] ≠ 0 ∨ operands[1] ≠ 0 then .err .unsupportedLength else .ok .clockByteIn
      else .err .truncatedInput := by
  match operands with
  | [] | [_] => simp [decodeByteIn]
  | _ :: _ :: _ => simp [decodeByteIn, lengthOk_length16, ← not_and_or, -not_and]

theorem decodeBitOut_checks (operands : List Byte) :
    decodeBitOut operands =
      if h : 1 ≤ operands.length then
        if operands[0] ≠ 0 then .err .unsupportedLength
        else if h' : 2 ≤ operands.length then .ok (.clockBitOut operands[1]) else .err .truncatedInput
      else .err .truncatedInput := by
  match operands with
  | [] => simp [decodeBitOut]
  | [_] | _ :: _ :: _ => simp [decodeBitOut, bitLengthOk_iff]

theorem decodeDivisor_checks (operands : List Byte) :
    decodeDivisor operands =
      if h : 2 ≤ operands.length then .ok (.setDivisor operands[0] operands[1]) else .err .truncatedInput := by
  match operands with
  | [] | [_] | _ :: _ :: _ => simp [decodeDivisor]

/-- Settles O27: the chain asks for the kinds in the table's order; at the kind that has the byte, injectivity selects its
operand decoder, and past them all no kind has it. -/
theorem errorPriority : Obligations.ErrorPriority := by
  intro opc op operands hw
  have selected (k : Kind) := decode_byte_cons hw k operands
  symm
  refine ite_eq_iff'.mpr ⟨fun h => ?setAdBus, fun hSet => ite_eq_iff'.mpr ⟨fun h => ?clockByteOut, fun hByteOut =>
    ite_eq_iff'.mpr ⟨fun h => ?clockByteIn, fun hByteIn => ite_eq_iff'.mpr ⟨fun h => ?clockBitOut, fun hBitOut =>
    ite_eq_iff'.mpr ⟨fun h => ?readStatus, fun hRead => ite_eq_iff'.mpr ⟨fun h => ?disableLoopback, fun hLoop =>
    ite_eq_iff'.mpr ⟨fun h => ?sendImmediate, fun hSend => ite_eq_iff'.mpr ⟨fun h => ?setDivisor, fun hDiv =>
    ?none⟩⟩⟩⟩⟩⟩⟩⟩
  case setAdBus => exact h ▸ ((selected .setAdBus).trans (decodePins_checks operands)).symm
  case clockByteOut => exact h ▸ ((selected .clockByteOut).trans (decodeByteOut_checks operands)).symm
  case clockByteIn => exact h ▸ ((selected .clockByteIn).trans (decodeByteIn_checks operands)).symm
  case clockBitOut => exact h ▸ ((selected .clockBitOut).trans (decodeBitOut_checks operands)).symm
  case readStatus => exact h ▸ (selected .readStatus).symm
  case disableLoopback => exact h ▸ (selected .disableLoopback).symm
  case sendImmediate => exact h ▸ (selected .sendImmediate).symm
  case setDivisor => exact h ▸ ((selected .setDivisor).trans (decodeDivisor_checks operands)).symm
  case none =>
    refine (decode_cons_eq_unrecognizedOpcode_iff.mpr fun k hk => ?_).symm
    cases k
    case setAdBus => exact hSet hk.symm
    case clockByteOut => exact hByteOut hk.symm
    case clockByteIn => exact hByteIn hk.symm
    case clockBitOut => exact hBitOut hk.symm
    case readStatus => exact hRead hk.symm
    case disableLoopback => exact hLoop hk.symm
    case sendImmediate => exact hSend hk.symm
    case setDivisor => exact hDiv hk.symm

/-- Settles O1: the words are the encodings of their commands, so O3 reads the commands back. -/
theorem decodeSampleWords : Obligations.DecodeSampleWords := by
  have read (i : Instr) : decode suggestedOpc (encode suggestedOpc i) = .ok i := by
    simpa using decodeEncode suggestedOpc i [] (by decide)
  exact ⟨read (.setAdBus 2 3), read (.clockByteOut 0x55), read .clockByteIn, read (.clockBitOut 0xFF),
    read .readStatus, read .disableLoopback, read .sendImmediate, read (.setDivisor 0x12 0x34)⟩

end Sys2Proof
end

section
/-! PROOFS. The commands: what each does to the state, whatever the sink answers (10_state.md R33 to R39). -/

namespace Sys2Proof.Machine

/-- A command with samples completes when the sink grants one ask per sample and one for the flush (10_state.md R33,
20_memory.md R56). -/
theorem exec_granted {i : Instr} {s : State} (hi : emits i.kind = true)
    (h : oracleGrants s.sinkOk ((synth (commandOf i)).length + 1)) :
    exec i s = .next { s with
      cmdLog := s.cmdLog ++ [commandOf i]
      sink := s.sink ++ synth (commandOf i)
      durable := s.sink.length + (synth (commandOf i)).length
      cur := s.cur + i.size
      sinkOk := oracleSkip s.sinkOk ((synth (commandOf i)).length + 1) } := by
  have hne : synth (commandOf i) ≠ [] := by simp [synth_commandOf_eq_nil_iff, hi]
  rw [exec_eq_perform, perform_granted i.size s hne h, List.length_append]

/-- A sample holds the data level in bit 1 and the clock level in bit 0 (20_memory.md R49). -/
theorem sampleOf_getLsbD_one (dat clk : Bool) : (sampleOf dat clk).getLsbD 1 = dat := by
  cases dat <;> cases clk <;> rfl

theorem sampleOf_getLsbD_zero (dat clk : Bool) : (sampleOf dat clk).getLsbD 0 = clk := by
  cases dat <;> cases clk <;> rfl

/-- The sample of pins 1 and 0 is the value mask without its other bits (40_pin_commands.md R91). -/
theorem sampleOf_low_bits (v : Byte) : sampleOf (v.getLsbD 1) (v.getLsbD 0) = v &&& 3 := by
  refine BitVec.eq_of_getLsbD_eq fun j hj => ?_
  match j, hj with
  | 0, _ => rw [sampleOf_getLsbD_zero]; simp
  | 1, _ => rw [sampleOf_getLsbD_one]; simp
  | j + 2, hj =>
    rw [getLsbD_of_sampleOk (sampleOf_ok _ _) (by omega), BitVec.getLsbD_and,
      getLsbD_of_sampleOk (b := 3) (by decide) (by omega), Bool.and_false]

/-- Settles O7: the one sample is `V & 3`. -/
theorem setAdBusCompletes : Obligations.SetAdBusCompletes := by
  refine ⟨fun _ => rfl, fun v d s h => ?_⟩
  rw [← sampleOf_low_bits v]
  exact exec_granted (i := .setAdBus v d) rfl h

/-- The burst of a one and of a zero, as bytes (41_clocked_transfers.md R95). -/
theorem emitBurst_eq (b : Bool) : emitBurst b = if b then [0x02, 0x03, 0x02] else [0x00, 0x01, 0x00] := by
  cases b <;> decide

/-- The samples of ClockByteOut are the bursts of bits 7 down to 0 (41_clocked_transfers.md R97). -/
theorem synth_clockByteOut (b : Byte) :
    synth (.clockByteOut b) = (List.range 8).flatMap fun i => emitBurst (b.getLsbD (7 - i)) := rfl

/-- Settles O11: the 24 samples are eight bursts, each written out as bytes. -/
theorem clockByteOutCompletes : Obligations.ClockByteOutCompletes := by
  intro b s h
  simp only [← emitBurst_eq]
  exact exec_granted (i := .clockByteOut b) rfl h

/-- Element `n * i + j` of blocks of length `n` put together is element `j` of block `i`. -/
theorem getElem?_flatMap_of_length_eq {α β : Type} (f : α → List β) {n : Nat} (hf : ∀ a, (f a).length = n) {l : List α}
    {i j : Nat} (hi : i < l.length) (hj : j < n) : (l.flatMap f)[n * i + j]? = (f l[i])[j]? := by
  induction l generalizing i with
  | nil => simp at hi
  | cons a l ih =>
    cases i with
    | zero => simp [List.getElem?_append, hf, hj]
    | succ i =>
      have hsplit : n * (i + 1) + j = (f a).length + (n * i + j) := by rw [hf]; ring
      rw [List.flatMap_cons, hsplit, List.getElem?_append_right (Nat.le_add_right _ _), Nat.add_sub_cancel_left,
        ih (by simpa using hi), List.getElem_cons_succ]

/-- Sample `j` of a burst: the data level, and the clock up in the middle (R95). -/
theorem emitBurst_getElem? (b : Bool) {j : Nat} (hj : j < 3) :
    (emitBurst b)[j]? = some (sampleOf b (decide (j = 1))) := by
  match j, hj with
  | 0, _ | 1, _ | 2, _ => rfl

/-- Settles O12: sample 3i+j is sample j of the burst of bit 7-i. -/
theorem clockByteOutSampleIndex : Obligations.ClockByteOutSampleIndex := by
  intro b s h
  refine ⟨_, exec_granted (i := .clockByteOut b) rfl h, List.length_append, fun i hi j hj => ?_⟩
  refine ⟨sampleOf (b.getLsbD (7 - i)) (decide (j = 1)), ?_, sampleOf_getLsbD_one _ _, sampleOf_getLsbD_zero _ _⟩
  have hrange : i < (List.range 8).length := by simpa using hi
  calc (s.sink ++ synth (.clockByteOut b))[s.sink.length + 3 * i + j]?
      = (synth (.clockByteOut b))[3 * i + j]? := by
        rw [Nat.add_assoc, List.getElem?_append_right (Nat.le_add_right _ _), Nat.add_sub_cancel_left]
    _ = (emitBurst (b.getLsbD (7 - i)))[j]? := by
        rw [synth_clockByteOut, getElem?_flatMap_of_length_eq _ (n := 3) (fun _ => rfl) hrange hj, List.getElem_range]
    _ = some (sampleOf (b.getLsbD (7 - i)) (decide (j = 1))) := emitBurst_getElem? _ hj

/-- Settles O13: the level is true for 0xFF alone, and the samples are its burst. -/
theorem clockBitOutCompletes : Obligations.ClockBitOutCompletes := by
  refine ⟨emitBurst_eq, fun x s h => ?_⟩
  have hlevel : levelOf x = decide (x = 0xFF) := Bool.beq_eq_decide_eq x 0xFF
  have hsynth : synth (.clockBitOut (levelOf x)) = if x = 0xFF then [0x02, 0x03, 0x02] else [0x00, 0x01, 0x00] := by
    simp only [synth, emitBurst_eq, hlevel, decide_eq_true_eq]
  rw [← hlevel, ← hsynth]
  exact exec_granted (i := .clockBitOut x) rfl h

/-- Settles O17: it is the shared part of the step at its first failing append. -/
theorem appendFailureKeepsEarlierSamples : Obligations.AppendFailureKeepsEarlierSamples := by
  intro i s j hj hgranted hdenied
  rw [exec_eq_perform, perform_append_denied i.size s j hj hgranted hdenied]

/-- Settles O18: it is the shared part of the step at its failing flush. -/
theorem flushFailureIsSinkWriteFailure : Obligations.FlushFailureIsSinkWriteFailure := by
  intro i s hi hgranted hdenied
  have hne : synth (commandOf i) ≠ [] := by simp [synth_commandOf_eq_nil_iff, hi]
  rw [exec_eq_perform, perform_flush_denied i.size s hne hgranted hdenied]

/-- A command completes and moves the cursor by its size, or a sink failure leaves cursor and `durable`
(60_exceptions.md R130). -/
theorem perform_completes_or_fails (cmd : Command) (size : Nat) (s : State) :
    ((perform cmd size s).status = s.status ∧ (perform cmd size s).cur = s.cur + size) ∨
      ((perform cmd size s).status = .error .sinkWriteFailure s.cur ∧ (perform cmd size s).cur = s.cur ∧
        (perform cmd size s).durable = s.durable) := by
  obtain ⟨-, he⟩ | ⟨-, he⟩ | ⟨_, -, -, he⟩ := perform_cases cmd size s <;> rw [he]
  · exact .inl ⟨rfl, rfl⟩
  · exact .inl ⟨rfl, rfl⟩
  · exact .inr ⟨rfl, rfl, rfl⟩

/-- Settles O19: the sink grows by a front part of the command's samples; the rest is the frame of the shared part. -/
theorem commandFrame : Obligations.CommandFrame := by
  intro i s t h
  obtain ⟨l, hl, hsink⟩ := exec_sink h
  obtain rfl := Host.Outcome.next.inj ((exec_eq_perform i s).symm.trans h)
  obtain ⟨hbuf, hcrashed, hopc, hturns, hlog⟩ := perform_frame (commandOf i) i.size s
  refine ⟨hbuf, hcrashed, hopc, hturns, hlog, fun a ha => ?_, fun a ha => ?_,
    perform_completes_or_fails (commandOf i) i.size s⟩
  · rw [hsink, List.getElem?_append_left ha]
  · have := hl.length_le
    rw [hsink, List.getElem?_eq_none_iff, List.length_append]
    omega

/-- Settles O20: of the four ways of a command, the silent one asks nothing and one of the others flushes, once. -/
theorem flushDiscipline : Obligations.FlushDiscipline := by
  intro i s t h
  obtain rfl := Host.Outcome.next.inj ((exec_eq_perform i s).symm.trans h)
  have hsilent := synth_commandOf_eq_nil_iff i
  obtain ⟨h0, he⟩ | ⟨h0, he⟩ | ⟨j, -, h0, he⟩ := perform_cases (commandOf i) i.size s <;> rw [he]
  · exact ⟨fun hi => absurd (hsilent.mp h0) (by simp [hi]), fun _ => ⟨rfl, rfl, rfl⟩⟩
  · exact ⟨fun _ => .inl ⟨rfl, rfl, rfl⟩, fun hi => absurd (hsilent.mpr hi) h0⟩
  · exact ⟨fun _ => .inr ⟨rfl, rfl⟩, fun hi => absurd (hsilent.mpr hi) h0⟩

end Sys2Proof.Machine
end

section
/-! PROOFS. The block's step: it ends the invocation, raises a decode error or runs one command (10_state.md R33). -/

namespace Sys2Proof

/-- The operand decoders raise two errors only (60_exceptions.md R127, R129). -/
theorem decodeOperands_eq_err {k : Kind} {operands : List Byte} {code : ErrorCode}
    (h : decodeOperands k operands = .err code) : code = .unsupportedLength ∨ code = .truncatedInput := by
  cases k
  case setAdBus => exact .inr (decodePins_eq_err h)
  case setDivisor => exact .inr (decodeDivisor_eq_err h)
  case readStatus | disableLoopback | sendImmediate => cases h
  case clockByteOut | clockByteIn | clockBitOut =>
    simp only [decodeOperands, decodeByteOut.eq_def, decodeByteIn.eq_def, decodeBitOut.eq_def] at h
    repeat' split at h
    all_goals cases h
    all_goals simp

/-- Decoding raises no failure of the sink (60_exceptions.md R125). -/
theorem decode_ne_sinkWriteFailure (opc : OpcodeMap) (bytes : List Byte) :
    decode opc bytes ≠ .err .sinkWriteFailure := by
  intro h
  match bytes with
  | [] => cases h
  | op :: operands =>
    cases hk : opc.kind? op with
    | none => simp [decode, hk] at h
    | some k =>
      simp only [decode, hk] at h
      simpa using decodeOperands_eq_err h

/-- A command occupies as many bytes as its encoding has (30_encoding.md R66, R79). -/
theorem encode_length (opc : OpcodeMap) (i : Instr) : (encode opc i).length = i.size := by
  cases i <;> rfl

/-! ### Which operand bytes are missing (60_exceptions.md R129) -/

theorem decodePins_eq_truncatedInput_iff (operands : List Byte) :
    decodePins operands = .err .truncatedInput ↔ operands.length < 2 := by
  match operands with
  | [] | [_] | _ :: _ :: _ => simp [decodePins]

/-- The data byte of ClockByteOut is needed only after a zero length field (R129, R132). -/
theorem decodeByteOut_eq_truncatedInput_iff (operands : List Byte) :
    decodeByteOut operands = .err .truncatedInput ↔
      operands.length < 2 ∨ (operands[0]? = some 0 ∧ operands[1]? = some 0 ∧ operands.length < 3) := by
  match operands with
  | [] | [_] => simp [decodeByteOut]
  | [_, _] => simp [decodeByteOut, lengthOk_length16]
  | _ :: _ :: _ :: rest => simp [decodeByteOut, ite_eq_iff', show ¬rest.length + 1 + 1 + 1 < 3 by omega]

theorem decodeByteIn_eq_truncatedInput_iff (operands : List Byte) :
    decodeByteIn operands = .err .truncatedInput ↔ operands.length < 2 := by
  match operands with
  | [] | [_] => simp [decodeByteIn]
  | lo :: hi :: _ => simp [decodeByteIn, ite_eq_iff']

/-- The operand byte of ClockBitOut is needed only after a zero length byte (R129, R132). -/
theorem decodeBitOut_eq_truncatedInput_iff (operands : List Byte) :
    decodeBitOut operands = .err .truncatedInput ↔
      operands.length < 1 ∨ (operands[0]? = some 0 ∧ operands.length < 2) := by
  match operands with
  | [] => simp [decodeBitOut]
  | [_] => simp [decodeBitOut, bitLengthOk_iff]
  | _ :: _ :: _ => simp [decodeBitOut, ite_eq_iff']

theorem decodeDivisor_eq_truncatedInput_iff (operands : List Byte) :
    decodeDivisor operands = .err .truncatedInput ↔ operands.length < 2 := by
  match operands with
  | [] | [_] | _ :: _ :: _ => simp [decodeDivisor]

end Sys2Proof

namespace Sys2Proof.Machine

/-! ### What an enabled step does -/

/-- A step under an injective map is the move of the next mover. -/
theorem step_eq_takeTurn {s : State} {m : Turn} (hw : s.opc.wellFormed = true) (hm : nextTurn s = m) :
    step s = takeTurn m (popTurn s) := by
  rw [step, if_pos hw, hm]

/-- At the end of the buffer an enabled step makes the status DONE (10_state.md R33). -/
theorem step_at_end {s : State} (hs : BlockEnabled s) (hcur : s.cur = s.buf.length) :
    step s = .next { popTurn s with status := .done } := by
  rw [step_block hs.opcode hs.turn]
  simp [blockStep, hs.alive, hs.busy, hcur]

/-- An enabled step runs the command at the cursor (R33). -/
theorem step_of_decode_ok {s : State} {i : Instr} (hs : BlockEnabled s) (hd : decode s.opc (fetchBytes s) = .ok i) :
    step s = .next (perform (commandOf i) i.size (popTurn s)) := by
  have hcur : s.cur ≠ s.buf.length := by
    intro hc
    simp [fetchBytes, hc, decode] at hd
  rw [step_block hs.opcode hs.turn]
  simp [blockStep, hs.alive, hs.busy, hcur, hd, exec_eq_perform]

/-- A decoded command lies within the buffer, and its encoding is what stands at the cursor (30_encoding.md R79, R80). -/
theorem fetchBytes_of_decode_ok {s : State} {i : Instr} (hd : decode s.opc (fetchBytes s) = .ok i) :
    fetchBytes s = encode s.opc i ++ s.buf.drop (s.cur + i.size) ∧ s.cur + i.size ≤ s.buf.length := by
  obtain ⟨rest, hrest⟩ := encodeDecode s.opc (fetchBytes s) i hd
  have hlen : s.buf.length - s.cur = i.size + rest.length := by
    rw [← encode_length s.opc i, ← List.length_append, ← hrest, fetchBytes, List.length_drop]
  have hpos := size_pos i
  refine ⟨?_, by omega⟩
  rw [← List.drop_drop, ← fetchBytes, hrest, List.drop_left' (encode_length s.opc i)]

/-- Settles O21: exec performs the value of its command, as the enabled step does. -/
theorem stepRunsDecoded : Obligations.StepRunsDecoded := by
  intro s i hs hd
  exact (step_of_decode_ok hs hd).trans (exec_eq_perform i (popTurn s)).symm

/-- Settles O22. -/
theorem endOfBufferIsDone : Obligations.EndOfBufferIsDone :=
  fun _ hs hcur => step_at_end hs hcur

/-- Settles O23. -/
theorem decodeErrorEntry : Obligations.DecodeErrorEntry :=
  fun _ _ hs hd => step_of_decode_err hs hd

/-- A table word that decodes to a command does so by its bytes under the suggested map (30_encoding.md R67). -/
theorem decode_tableBytes {nbits w : Nat} {i : Instr} (h : decodeTableWord nbits w = some i) :
    decode suggestedOpc (tableBytes nbits w) = .ok i := by
  unfold decodeTableWord at h
  split at h
  · rename_i hd
    rw [hd, Option.some.inj h]
  all_goals cases h

/-- Settles O6: the state withFetchWord gives is enabled, with the word's bytes at its cursor and no turn to take off. -/
theorem fetchWordRuns : Obligations.FetchWordRuns := by
  intro s nbits w i h
  have hw : suggestedOpc.wellFormed = true := by decide
  have enabled : BlockEnabled (s.withFetchWord nbits w) := ⟨hw, rfl, rfl, rfl⟩
  exact stepRunsDecoded _ i enabled (decode_tableBytes h)

/-- An enabled step with a SetDivisor at the cursor logs it and passes it, whatever its two bytes are
(42_ignored_commands.md R118). -/
theorem step_at_setDivisor {s : State} {before rest : List Byte} {x0 x1 : Byte} (hs : BlockEnabled s)
    (hcur : s.cur = before.length) (hbuf : s.buf = before ++ [s.opc.setDivisor, x0, x1] ++ rest) :
    step s = .next { popTurn s with cmdLog := s.cmdLog ++ [.ignored .setDivisor], cur := s.cur + 3 } := by
  have hfetch : fetchBytes s = encode s.opc (.setDivisor x0 x1) ++ rest := by
    rw [fetchBytes, hbuf, hcur, List.append_assoc, List.drop_left]
    rfl
  have hd : decode s.opc (fetchBytes s) = .ok (.setDivisor x0 x1) :=
    hfetch ▸ decodeEncode s.opc (.setDivisor x0 x1) rest hs.opcode
  rw [step_of_decode_ok hs hd, perform_silent _ _ rfl]
  rfl

/-- Settles O16: the step with the other two bytes is the same step on the other buffer. -/
theorem setDivisorDiscards : Obligations.SetDivisorDiscards := by
  intro s before rest x0 x1 y0 y1 hs hcur hbuf
  refine ⟨_, step_at_setDivisor hs hcur hbuf, rfl, rfl, ?_⟩
  exact step_at_setDivisor ⟨hs.opcode, hs.turn, hs.busy, hs.alive⟩ hcur rfl

/-- A needed operand byte is missing exactly when the operand decoder says so (60_exceptions.md R129). -/
theorem operandMissing_iff_decodeOperands (s : State) (k : Kind) :
    operandMissing s k ↔ decodeOperands k (s.buf.drop (s.cur + 1)) = .err .truncatedInput := by
  have fewer (n : Nat) : (s.buf.drop (s.cur + 1)).length < n + 1 ↔ s.cur + (n + 2) > s.buf.length := by
    rw [List.length_drop]
    omega
  cases k
  case setAdBus => exact ((decodePins_eq_truncatedInput_iff _).trans (fewer 1)).symm
  case clockByteIn => exact ((decodeByteIn_eq_truncatedInput_iff _).trans (fewer 1)).symm
  case setDivisor => exact ((decodeDivisor_eq_truncatedInput_iff _).trans (fewer 1)).symm
  case clockByteOut =>
    rw [decodeOperands, decodeByteOut_eq_truncatedInput_iff, fewer 1, fewer 2, List.getElem?_drop, List.getElem?_drop]
    rfl
  case clockBitOut =>
    rw [decodeOperands, decodeBitOut_eq_truncatedInput_iff, fewer 0, fewer 1, List.getElem?_drop]
    rfl
  case readStatus | disableLoopback | sendImmediate => exact ⟨False.elim, fun h => nomatch h⟩

/-- Where decoding finds input missing, a kind has the byte at the cursor (30_encoding.md R71). -/
theorem kind_at_cursor_of_truncatedInput {s : State} (hd : decode s.opc (fetchBytes s) = .err .truncatedInput) :
    ∃ k, s.buf[s.cur]? = some (s.opc.byte k) := by
  cases hop : s.buf[s.cur]? with
  | none =>
    have hend : fetchBytes s = [] := List.drop_eq_nil_of_le (List.getElem?_eq_none_iff.mp hop)
    rw [hend] at hd
    cases hd
  | some op =>
    rw [fetchBytes_eq_cons hop] at hd
    cases hk : s.opc.kind? op with
    | none => simp [decode, hk] at hd
    | some k => exact ⟨k, congrArg some (OpcodeMap.byte_of_kind?_eq_some hk).symm⟩

/-- Settles O26: the step raises what decoding answers, and decoding answers this error only at a kind's opcode byte, from
that kind's operands. -/
theorem truncatedInputRaised : Obligations.TruncatedInputRaised := by
  have at_kind (s : State) (k : Kind) (hs : BlockEnabled s) (hop : s.buf[s.cur]? = some (s.opc.byte k)) :
      operandMissing s k ↔ Raises s .truncatedInput := by
    rw [raises_iff_decode_err hs (by decide), fetchBytes_eq_cons hop, decode_byte_cons hs.opcode,
      operandMissing_iff_decodeOperands]
  refine ⟨at_kind, fun s hs hraises => ?_⟩
  obtain ⟨k, hop⟩ := kind_at_cursor_of_truncatedInput ((raises_iff_decode_err hs (by decide)).mp hraises)
  exact ⟨k, hop, (at_kind s k hs hop).mpr hraises⟩

/-- An enabled step that leaves the status BUSY ran the command at the cursor to its end (10_state.md R33). -/
theorem command_of_step_busy {s t : State} (hs : BlockEnabled s) (h : step s = .next t) (hbusy : t.status = .busy) :
    ∃ i, decode s.opc (fetchBytes s) = .ok i ∧ t = perform (commandOf i) i.size (popTurn s) ∧
      t.cur = s.cur + i.size := by
  rw [step_block hs.opcode hs.turn] at h
  obtain ⟨-, -, ⟨-, rfl⟩ | ⟨-, _, -, rfl⟩ | ⟨-, i, hd, rfl⟩⟩ := blockStep_cases h
  · cases hbusy
  · cases hbusy
  · obtain ⟨-, hcur⟩ | ⟨herr, -⟩ := perform_completes_or_fails (commandOf i) i.size (popTurn s)
    · exact ⟨i, hd, rfl, hcur⟩
    · cases hbusy.symm.trans herr

/-- Settles O29: the command's encoding stands at the cursor, so its end is within the buffer. -/
theorem cursorMovesForward : Obligations.CursorMovesForward := by
  intro s t hs h hbusy
  obtain ⟨i, hd, rfl, hcur⟩ := command_of_step_busy hs h hbusy
  obtain ⟨-, hle⟩ := fetchBytes_of_decode_ok hd
  obtain ⟨hbuf, -⟩ := perform_frame (commandOf i) i.size (popTurn s)
  have hpos := size_pos i
  exact ⟨i, hd, hcur, by omega, by rw [hcur, hbuf]; exact hle⟩

/-! ### What the step depends on -/

/-- The samples a command appends, the answers it leaves, and whether it completes depend on the command and on the answers
to come alone (10_state.md R37, R39). -/
theorem perform_depends_on_oracle (cmd : Command) (o : SinkOracle) :
    ∃ samples o', ∃ completes : Bool, ∀ (size : Nat) (s : State), s.sinkOk = o →
      (perform cmd size s).sink = s.sink ++ samples ∧ (perform cmd size s).sinkOk = o' ∧
      (perform cmd size s).cur = s.cur + (if completes then size else 0) ∧
      (perform cmd size s).status = if completes then s.status else .error .sinkWriteFailure s.cur := by
  by_cases h0 : synth cmd = []
  · refine ⟨[], o, true, ?_⟩
    rintro size s rfl
    rw [perform_silent size s h0]
    exact ⟨(List.append_nil _).symm, rfl, rfl, rfl⟩
  · obtain hg | ⟨j, hj, hg, hf⟩ := oracle_grants_or_first_failure o ((synth cmd).length + 1)
    · refine ⟨synth cmd, oracleSkip o ((synth cmd).length + 1), true, ?_⟩
      rintro size s rfl
      rw [perform_granted size s h0 hg]
      exact ⟨rfl, rfl, rfl, rfl⟩
    · refine ⟨(synth cmd).take j, oracleSkip o (j + 1), false, ?_⟩
      rintro size s rfl
      obtain hlt | rfl := Nat.lt_succ_iff_lt_or_eq.mp hj
      · rw [perform_append_denied size s j hlt hg hf]
        exact ⟨rfl, rfl, rfl, rfl⟩
      · rw [perform_flush_denied size s h0 hg hf, List.take_length]
        exact ⟨rfl, rfl, rfl, rfl⟩

/-- Settles O30: the two states end, err or run a command together, since they decode the same bytes under the same map; and
what a command does depends on the answers alone. -/
theorem stepDependsOnRemainingBytes : Obligations.StepDependsOnRemainingBytes := by
  intro s s' t hs hs' hcur hcur' hrest hopc hsink h
  have hlen := congrArg List.length hrest
  rw [List.length_drop, List.length_drop] at hlen
  have hdecode : decode s'.opc (fetchBytes s') = decode s.opc (fetchBytes s) := by
    rw [fetchBytes, fetchBytes, hopc, hrest]
  rw [step_block hs.opcode hs.turn] at h
  obtain ⟨-, -, ⟨hend, rfl⟩ | ⟨-, code, hd, rfl⟩ | ⟨-, i, hd, rfl⟩⟩ := blockStep_cases h
  · have hend' : s'.cur = s'.buf.length := by
      rw [popTurn_cur, popTurn_buf] at hend
      omega
    exact ⟨_, [], [], step_at_end hs' hend', (List.append_nil _).symm, (List.append_nil _).symm,
      (List.append_nil _).symm, (List.append_nil _).symm, hrest, hsink, rfl, rfl⟩
  · exact ⟨_, [], [], step_of_decode_err hs' (hdecode.trans hd), (List.append_nil _).symm, (List.append_nil _).symm,
      (List.append_nil _).symm, (List.append_nil _).symm, hrest, hsink, rfl, rfl⟩
  · obtain ⟨samples, o', completes, hp⟩ := perform_depends_on_oracle (commandOf i) s.sinkOk
    obtain ⟨hs1, ho1, hc1, hst1⟩ := hp i.size (popTurn s) rfl
    obtain ⟨hs2, ho2, hc2, hst2⟩ := hp i.size (popTurn s') hsink.symm
    obtain ⟨hb1, -, -, -, hl1⟩ := perform_frame (commandOf i) i.size (popTurn s)
    obtain ⟨hb2, -, -, -, hl2⟩ := perform_frame (commandOf i) i.size (popTurn s')
    refine ⟨_, [commandOf i], samples, step_of_decode_ok hs' (hdecode.trans hd), hl1, hl2, hs1, hs2, ?_,
      ho1.trans ho2.symm, ?_, ?_⟩
    · rw [hb1, hb2, hc1, hc2, ← List.drop_drop, ← List.drop_drop]
      exact congrArg _ hrest
    · rw [hst1, hst2]
      cases completes
      · rfl
      · exact congrArg statusState (hs.busy.trans hs'.busy.symm)
    · rw [hst1, hst2]
      cases completes
      · rfl
      · exact congrArg statusCode (hs.busy.trans hs'.busy.symm)

end Sys2Proof.Machine
end

section
/-! PROOFS. The moves of the host and the platform, and the moves the machine does not have (10_state.md R31 to R35,
20_memory.md R60, 70_reset_and_hazards.md R150, R154). -/

namespace Sys2Proof.Machine

/-! ### Each mover outside its enabled states -/

theorem blockStep_of_ne_busy {s : State} (halive : s.crashed = false) (hs : s.status ≠ .busy) :
    blockStep s = .fault .noStepEnabled := by
  cases h : s.status
  case busy => exact absurd h hs
  all_goals simp [blockStep, halive, h]

theorem hostStart_of_ne_busy (buffer : List Byte) {s : State} (halive : s.crashed = false) (hs : s.status ≠ .busy) :
    hostStart buffer s = .next { s with buf := buffer, cur := 0, cmdLog := [], status := .busy } := by
  cases h : s.status
  case busy => exact absurd h hs
  all_goals simp [hostStart, halive, h]

theorem hostStart_of_busy (buffer : List Byte) {s : State} (halive : s.crashed = false) (hs : s.status = .busy) :
    hostStart buffer s = .refused .startWhileBusy := by
  simp [hostStart, halive, hs]

theorem close_of_ne_busy {s : State} (halive : s.crashed = false) (hs : s.status ≠ .busy) :
    close s = .next (sinkFlush s).2 := by
  cases h : s.status
  case busy => exact absurd h hs
  all_goals simp [close, halive, h]

theorem close_of_busy {s : State} (halive : s.crashed = false) (hs : s.status = .busy) :
    close s = .refused .closeWhileBusy := by
  simp [close, halive, hs]

/-- After a crash only process reset has a move (20_memory.md R60). -/
theorem takeTurn_of_crashed {m : Turn} {s : State} (hc : s.crashed = true) (hm : m ≠ .processReset) :
    takeTurn m s = .fault .crashed := by
  cases m
  case processReset => exact absurd rfl hm
  case block => simp [takeTurn, blockStep, hc]
  case start => simp [takeTurn, hostStart, hc]
  case crash => simp [takeTurn, crash, hc]
  case close => simp [takeTurn, close, hc]

/-- No mover refuses for the opcode map; only the step does (30_encoding.md R68, log 10). -/
theorem takeTurn_ne_refused_opcodeMap (m : Turn) (s : State) :
    takeTurn m s ≠ .refused .opcodeMapNotInjective := by
  cases m <;> simp only [takeTurn, blockStep, hostStart, crash, close, exec_eq_perform]
  case processReset => exact nofun
  case block | start | crash | close =>
    repeat' split
    all_goals exact nofun

/-- Settles O5: well-formedness is injectivity, and the step asks for it before anybody moves. -/
theorem opcodeMapInjective : Obligations.OpcodeMapInjective := by
  refine fun s => ⟨fun ⟨k, k', hne, heq⟩ => ?_, fun hinj => ?_⟩
  · exact if_neg fun hw => hne (OpcodeMap.byte_injective hw heq)
  · rw [step_eq_takeTurn ((OpcodeMap.wellFormed_iff s.opc).mpr hinj) rfl]
    exact takeTurn_ne_refused_opcodeMap _ _

/-- Settles O28. -/
theorem noMoveOutsideBusy : Obligations.NoMoveOutsideBusy := by
  refine fun s hw => ⟨fun halive hturn hs => ?_, fun hc hturn => ?_⟩
  · rw [step_block hw hturn]
    exact blockStep_of_ne_busy halive hs
  · rw [step_eq_takeTurn hw rfl]
    exact takeTurn_of_crashed hc hturn

/-- Settles O31. -/
theorem startBeginsInvocation : Obligations.StartBeginsInvocation := by
  intro s buffer hw hturn halive
  rw [step_eq_takeTurn hw hturn]
  exact ⟨hostStart_of_ne_busy buffer (s := popTurn s) halive, hostStart_of_busy buffer (s := popTurn s) halive⟩

/-- Settles O32: the move is `processReset`, whose elements are the values of R42. -/
theorem processResetEverywhere : Obligations.ProcessResetEverywhere := by
  intro s hw hturn
  exact ⟨processReset (popTurn s), step_eq_takeTurn hw hturn, rfl, rfl, rfl, rfl, rfl, rfl, rfl, rfl, rfl, rfl⟩

/-- Settles O33. -/
theorem resetValues : Obligations.ResetValues :=
  ⟨rfl, rfl, rfl, rfl, rfl, rfl, rfl⟩

/-- Settles O36: outside BUSY the move is one flush, granted or denied by the next answer. -/
theorem closeFlushes : Obligations.CloseFlushes := by
  intro s hw hturn halive
  rw [step_eq_takeTurn hw hturn]
  have flushes (hs : s.status ≠ .busy) : takeTurn .close (popTurn s) = .next (sinkFlush (popTurn s)).2 :=
    close_of_ne_busy (s := popTurn s) halive hs
  refine ⟨fun hs hgranted => ?_, fun hs hdenied => ?_, close_of_busy (s := popTurn s) halive⟩
  · rw [flushes hs, sinkFlush_granted (s := popTurn s) hgranted]
    rfl
  · rw [flushes hs, sinkFlush_denied (s := popTurn s) hdenied]
    rfl

/-! ### Crashes (20_memory.md R60) -/

/-- A crash whose trace is the sink followed by `l` keeps a front part of it within the bounds, and is refused outside
them. -/
theorem step_crash {s : State} {inStep : Bool} {keep : Nat} {l : List Byte} (hw : s.opc.wellFormed = true)
    (hturn : nextTurn s = .crash inStep keep) (halive : s.crashed = false) (hl : crashTrace inStep s = s.sink ++ l) :
    (s.durable ≤ keep ∧ keep ≤ s.sink.length + l.length →
      step s = .next { s with
        sink := (s.sink ++ l).take keep, durable := keep, crashed := true, turns := s.turns.tail }) ∧
    (¬(s.durable ≤ keep ∧ keep ≤ s.sink.length + l.length) → step s = .refused .crashPointOutOfBounds) := by
  rw [step_eq_takeTurn hw hturn, takeTurn, crash, popTurn_crashed, halive, if_neg Bool.false_ne_true,
    crashTrace_popTurn, hl, List.length_append, popTurn_durable]
  refine ⟨fun hb => ?_, fun hb => if_neg hb⟩
  rw [if_pos hb, List.length_take_of_le (by rw [List.length_append]; exact hb.2)]
  rfl

theorem samplesInFlight_of_ne_busy {s : State} (hs : s.status ≠ .busy) : samplesInFlight s = [] := by
  cases h : s.status
  case busy => exact absurd h hs
  all_goals simp [samplesInFlight, h]

theorem samplesInFlight_of_decode_ok {s : State} {i : Instr} (hs : s.status = .busy)
    (hd : decode s.opc (fetchBytes s) = .ok i) : samplesInFlight s = synth (commandOf i) := by
  simp [samplesInFlight, hs, hd]

/-- Only a command in flight has samples in flight. -/
theorem samplesInFlight_cases (s : State) :
    samplesInFlight s = [] ∨
      ∃ i, decode s.opc (fetchBytes s) = .ok i ∧ samplesInFlight s = synth (commandOf i) := by
  by_cases hs : s.status = .busy
  · cases hd : decode s.opc (fetchBytes s) with
    | ok i => exact .inr ⟨i, rfl, samplesInFlight_of_decode_ok hs hd⟩
    | err code => exact .inl (by simp [samplesInFlight, hs, hd])
    | noOpcode => exact .inl (by simp [samplesInFlight, hs, hd])
  · exact .inl (samplesInFlight_of_ne_busy hs)

/-- Settles O34: the samples in flight are those of the decoded command. -/
theorem crashInsideStep : Obligations.CrashInsideStep := by
  intro s i keep hw hturn halive hs hd
  have hflight : crashTrace true s = s.sink ++ synth (commandOf i) := by
    rw [crashTrace, if_pos rfl, samplesInFlight_of_decode_ok hs hd]
  exact step_crash hw hturn halive hflight

/-- There are no samples in flight exactly when the status is not BUSY or what stands at the cursor is no command that emits
(20_memory.md R56, R60). -/
theorem samplesInFlight_eq_nil_iff (s : State) :
    samplesInFlight s = [] ↔ s.status ≠ .busy ∨ s.buf.length ≤ s.cur ∨
      (∃ code, decode s.opc (fetchBytes s) = .err code) ∨
      ∃ i, decode s.opc (fetchBytes s) = .ok i ∧ emits i.kind = false := by
  have hend : decode s.opc (fetchBytes s) = .noOpcode ↔ s.buf.length ≤ s.cur := by
    rw [decode_eq_noOpcode_iff, fetchBytes, List.drop_eq_nil_iff]
  by_cases hs : s.status = .busy
  · rw [← hend]
    cases hd : decode s.opc (fetchBytes s) with
    | ok i => simp [samplesInFlight_of_decode_ok hs hd, synth_commandOf_eq_nil_iff, hs]
    | err code => simp [samplesInFlight, hs, hd]
    | noOpcode => simp [samplesInFlight, hs, hd]
  · exact iff_of_true (samplesInFlight_of_ne_busy hs) (.inl hs)

/-- Settles O35: nothing is in flight, so the crash cuts the old sink. -/
theorem crashBetweenSteps : Obligations.CrashBetweenSteps := by
  refine ⟨fun s inStep keep hw hturn halive hquiet => ?_, samplesInFlight_eq_nil_iff⟩
  have hflight : crashTrace inStep s = s.sink ++ [] := by
    obtain rfl | hnil := hquiet
    · rfl
    · rw [crashTrace, hnil, ite_self]
  simpa using step_crash hw hturn halive hflight

/-! ### The status register -/

/-- The error numbers of R125 of 60_exceptions.md are distinct. -/
theorem errorNumber_injective : Function.Injective errorNumber := by
  intro a b h
  match a, b, h with
  | .unrecognizedOpcode, .unrecognizedOpcode, _ | .unsupportedLength, .unsupportedLength, _
  | .truncatedInput, .truncatedInput, _ | .sinkWriteFailure, .sinkWriteFailure, _ => rfl

/-- Settles O38: the state field separates the four states, code number and offset separate the errors. -/
theorem statusRegisterFields : Obligations.StatusRegisterFields := by
  refine ⟨rfl, rfl, rfl, fun _ _ => ⟨rfl, rfl⟩, fun _ => ⟨rfl, rfl, rfl, rfl⟩, ⟨rfl, rfl, rfl⟩, ⟨rfl, rfl, rfl⟩, ?_⟩
  intro a b hstate hcode hoffset
  match a, b with
  | .idle, .idle | .busy, .busy | .done, .done => rfl
  | .error code offset, .error code' offset' =>
    obtain rfl := errorNumber_injective (Option.some.inj hcode)
    obtain rfl := Option.some.inj hoffset
    rfl

/-! ### An invocation that ends on its first byte -/

/-- A run of `k + 1` steps is a step and a run of `k` steps. -/
theorem stepN_succ {k : Nat} {s u : State} (h : step s = .next u) : stepN (k + 1) s = stepN k u := by
  rw [stepN, h]

/-- Settles O37: after the Start the block's step is enabled, and the byte at its cursor has no kind. -/
theorem unknownFirstByte : Obligations.UnknownFirstByte := by
  intro s op rest hw halive hs hturns hop
  have hnext : nextTurn s = .start (op :: rest) := by rw [nextTurn, hturns, List.headD_cons]
  obtain ⟨hstart, -⟩ := startBeginsInvocation s (op :: rest) hw hnext halive
  have hstart := hstart hs
  rw [hturns, List.tail_cons] at hstart
  have herr := step_of_decode_err
    (s := { s with buf := op :: rest, cur := 0, cmdLog := [], status := .busy, turns := [] })
    ⟨hw, rfl, rfl, halive⟩ (decode_cons_eq_unrecognizedOpcode_iff.mpr hop)
  exact ⟨_, (stepN_succ hstart).trans (stepN_succ herr), rfl, rfl, rfl, rfl⟩

end Sys2Proof.Machine
end

section
/-! PROOFS. What every step keeps: one relation says how each mover moves, and each rule of the whole machine is a case
split on it. -/

namespace Sys2Proof.Machine

/-- How each mover takes a state to the next one: the block in three ways (10_state.md R33), the host and the platform in
one each (R31, 20_memory.md R60, 70_reset_and_hazards.md R150, R154). -/
inductive Moved (s : State) : Turn → State → Prop where
  | finish (busy : s.status = .busy) (alive : s.crashed = false) (atEnd : s.cur = s.buf.length) :
      Moved s .block { s with status := .done }
  | decodeError (busy : s.status = .busy) (alive : s.crashed = false) (notAtEnd : s.cur ≠ s.buf.length)
      (code : ErrorCode) (decoded : decode s.opc (fetchBytes s) = .err code) : Moved s .block (raiseError code s)
  | command (busy : s.status = .busy) (alive : s.crashed = false) (i : Instr)
      (decoded : decode s.opc (fetchBytes s) = .ok i) : Moved s .block (perform (commandOf i) i.size s)
  | start (alive : s.crashed = false) (atRest : s.status ≠ .busy) (buffer : List Byte) :
      Moved s (.start buffer) { s with buf := buffer, cur := 0, cmdLog := [], status := .busy }
  | reset : Moved s .processReset (processReset s)
  | crash (alive : s.crashed = false) (inStep : Bool) (keep : Nat) (keepsDurable : s.durable ≤ keep)
      (inTrace : keep ≤ (crashTrace inStep s).length) :
      Moved s (.crash inStep keep) { s with
        sink := (crashTrace inStep s).take keep, durable := keep, crashed := true }
  | close (alive : s.crashed = false) (atRest : s.status ≠ .busy) : Moved s .close (sinkFlush s).2

/-- A turn that answers a next state moves in one of these ways. -/
theorem moved_of_takeTurn {m : Turn} {s t : State} (h : takeTurn m s = .next t) : Moved s m t := by
  cases m
  case block =>
    obtain ⟨alive, busy, ⟨atEnd, rfl⟩ | ⟨notAtEnd, code, hd, rfl⟩ | ⟨-, i, hd, rfl⟩⟩ := blockStep_cases h
    · exact .finish busy alive atEnd
    · exact .decodeError busy alive notAtEnd code hd
    · exact .command busy alive i hd
  case start buffer =>
    obtain ⟨alive, atRest, rfl⟩ := hostStart_cases h
    exact .start alive atRest buffer
  case processReset =>
    obtain rfl := Host.Outcome.next.inj h
    exact .reset
  case crash inStep keep =>
    obtain ⟨alive, keepsDurable, inTrace, rfl⟩ := crash_cases h
    rw [List.length_take_of_le inTrace]
    exact .crash alive inStep keep keepsDurable inTrace
  case close =>
    obtain ⟨alive, atRest, rfl⟩ := close_cases h
    exact .close alive atRest

/-- A step that answers a next state is a move of the next mover, from the state with its turn taken off. -/
theorem moved_of_step {s t : State} (h : step s = .next t) : Moved (popTurn s) (nextTurn s) t := by
  obtain ⟨-, hturn⟩ := step_cases h
  exact moved_of_takeTurn hturn

/-! ### The sink, its durable part, the buffer and the map -/

@[simp] theorem sinkFlush_buf (s : State) : (sinkFlush s).2.buf = s.buf := by rw [sinkFlush_frame]
@[simp] theorem sinkFlush_cur (s : State) : (sinkFlush s).2.cur = s.cur := by rw [sinkFlush_frame]
@[simp] theorem sinkFlush_status (s : State) : (sinkFlush s).2.status = s.status := by rw [sinkFlush_frame]
@[simp] theorem sinkFlush_cmdLog (s : State) : (sinkFlush s).2.cmdLog = s.cmdLog := by rw [sinkFlush_frame]
@[simp] theorem sinkFlush_sink (s : State) : (sinkFlush s).2.sink = s.sink := by rw [sinkFlush_frame]
@[simp] theorem sinkFlush_crashed (s : State) : (sinkFlush s).2.crashed = s.crashed := by rw [sinkFlush_frame]
@[simp] theorem sinkFlush_opc (s : State) : (sinkFlush s).2.opc = s.opc := by rw [sinkFlush_frame]

/-- A flush leaves `durable` or makes it the whole sink (20_memory.md R55). -/
theorem sinkFlush_durable (s : State) :
    (sinkFlush s).2.durable = s.durable ∨ (sinkFlush s).2.durable = s.sink.length := by
  unfold sinkFlush
  split
  · exact .inr rfl
  · exact .inl rfl

/-- A command appends samples, and leaves `durable` or makes it the whole sink (R52, R55). -/
theorem perform_sink (cmd : Command) (size : Nat) (s : State) :
    s.sink <+: (perform cmd size s).sink ∧
      ((perform cmd size s).durable = s.durable ∨ (perform cmd size s).durable = (perform cmd size s).sink.length) := by
  obtain ⟨-, he⟩ | ⟨-, he⟩ | ⟨_, -, -, he⟩ := perform_cases cmd size s <;> rw [he]
  · exact ⟨List.prefix_rfl, .inl rfl⟩
  · exact ⟨List.prefix_append _ _, .inr rfl⟩
  · exact ⟨List.prefix_append _ _, .inl rfl⟩

/-- A mover that neither resets nor crashes only extends the sink (20_memory.md R54). -/
theorem Moved.sink_prefix {s t : State} {m : Turn} (h : Moved s m t) (hreset : m ≠ .processReset)
    (hcrash : ∀ inStep keep, m ≠ .crash inStep keep) :
    s.sink <+: t.sink := by
  cases h
  case finish | decodeError | start => exact List.prefix_rfl
  case command _ _ i _ => exact (perform_sink (commandOf i) i.size s).1
  case reset => exact absurd rfl hreset
  case crash _ inStep keep _ _ => exact absurd rfl (hcrash inStep keep)
  case close => rw [sinkFlush_sink]

/-- Settles O39: a reset and a crash act as said; every other mover only appends. -/
theorem sinkAppendOnly : Obligations.SinkAppendOnly := by
  intro s t h
  have hmoved := moved_of_step h
  refine ⟨fun hreset => ?_, fun inStep keep hcrash => ?_, hmoved.sink_prefix⟩
  · rw [hreset] at hmoved
    cases hmoved
    rfl
  · rw [hcrash] at hmoved
    cases hmoved
    refine ⟨_, rfl, ?_⟩
    cases inStep
    · exact .inl rfl
    · obtain hnil | ⟨i, hd, hflight⟩ := samplesInFlight_cases s
      · exact .inl hnil
      · exact .inr ⟨rfl, i, hd, hflight⟩

/-- The flushed part of the sink survives every mover but the reset (20_memory.md R60). -/
theorem Moved.durable_kept {s t : State} {m : Turn} (h : Moved s m t) (hs : s.durable ≤ s.sink.length)
    (hreset : m ≠ .processReset) :
    s.durable ≤ t.durable ∧ t.sink.take s.durable = s.sink.take s.durable := by
  cases h
  case finish | decodeError | start => exact ⟨Nat.le_refl _, rfl⟩
  case command _ _ i _ =>
    obtain ⟨hsink, hdur⟩ := perform_sink (commandOf i) i.size s
    have hlen := hsink.length_le
    obtain ⟨l, hl⟩ := hsink
    refine ⟨by omega, ?_⟩
    rw [← hl, List.take_append_of_le_length hs]
  case reset => exact absurd rfl hreset
  case crash _ inStep keep hkeep _ =>
    refine ⟨hkeep, ?_⟩
    rw [List.take_take, Nat.min_eq_left hkeep, crashTrace, List.take_append_of_le_length hs]
  case close =>
    refine ⟨?_, by rw [sinkFlush_sink]⟩
    have := sinkFlush_durable s
    omega

/-- Settles O40: in a legal state the durable part lies inside the sink. -/
theorem durableNeverLost : Obligations.DurableNeverLost := by
  intro s t hs h hreset
  obtain ⟨-, hdur⟩ := (Memory.wf_iff s).mp hs.memory
  exact (moved_of_step h).durable_kept hdur hreset

/-- No mover writes the opcode map (70_reset_and_hazards.md R153). -/
theorem Moved.opc_eq {s t : State} {m : Turn} (h : Moved s m t) : t.opc = s.opc := by
  cases h
  case finish | decodeError | start | reset | crash => rfl
  case command _ _ i _ =>
    obtain ⟨-, -, hopc, -⟩ := perform_frame (commandOf i) i.size s
    exact hopc
  case close => exact sinkFlush_opc s

/-- Only Start and reset write the buffer (10_state.md R22). -/
theorem Moved.buf_eq {s t : State} {m : Turn} (h : Moved s m t) (hstart : ∀ buffer, m ≠ .start buffer)
    (hreset : m ≠ .processReset) : t.buf = s.buf := by
  cases h
  case finish | decodeError | crash => rfl
  case command _ _ i _ =>
    obtain ⟨hbuf, -⟩ := perform_frame (commandOf i) i.size s
    exact hbuf
  case start buffer => exact absurd rfl (hstart buffer)
  case reset => exact absurd rfl hreset
  case close => exact sinkFlush_buf s

/-- Settles O41. -/
theorem bufferAndMapConstant : Obligations.BufferAndMapConstant := by
  intro s t h
  have hmoved := moved_of_step h
  exact ⟨hmoved.opc_eq, hmoved.buf_eq⟩

/-- A move of the block leaves the log or adds a command to it (10_state.md R26). -/
theorem Moved.cmdLog_prefix {s t : State} (h : Moved s .block t) : s.cmdLog <+: t.cmdLog := by
  cases h
  case finish | decodeError => exact List.prefix_rfl
  case command _ _ i _ =>
    obtain ⟨-, -, -, -, hlog⟩ := perform_frame (commandOf i) i.size s
    exact hlog ▸ List.prefix_append _ _

/-- Settles O42. -/
theorem nothingRetracted : Obligations.NothingRetracted := by
  intro s t hs hturn h
  have hmoved := moved_of_step h
  rw [hturn] at hmoved
  obtain ⟨-, hwf⟩ := (Memory.wf_iff s).mp hs.memory
  obtain ⟨hdur, -⟩ := hmoved.durable_kept hwf nofun
  exact ⟨hmoved.cmdLog_prefix, hmoved.sink_prefix nofun nofun, hdur⟩

/-! ### The state stays legal -/

/-- A command run from BUSY fits the status to the cursor: it stays BUSY or reports the failure at its opcode byte. -/
theorem statusFits_perform {s : State} {i : Instr} (hbusy : s.status = .busy)
    (hd : decode s.opc (fetchBytes s) = .ok i) : statusFits (perform (commandOf i) i.size s) := by
  obtain ⟨-, hle⟩ := fetchBytes_of_decode_ok hd
  obtain ⟨hbuf, -⟩ := perform_frame (commandOf i) i.size s
  have hpos := size_pos i
  obtain ⟨hst, -⟩ | ⟨hst, hcur, -⟩ := perform_completes_or_fails (commandOf i) i.size s
  · rw [hbusy] at hst
    simp [statusFits, hst]
  · unfold statusFits
    rw [hst, hcur, hbuf]
    exact ⟨rfl, by omega⟩

/-- Every mover keeps the state legal. -/
theorem Moved.legal {s t : State} {m : Turn} (h : Moved s m t) (hs : s.Legal) : t.Legal := by
  obtain ⟨hopc, hcur, hmem, hfits, hcrashed⟩ := hs
  cases h
  case finish _ _ hend => exact ⟨hopc, hcur, hmem, hend, hcrashed⟩
  case decodeError _ _ hne code _ => exact ⟨hopc, hcur, hmem, ⟨rfl, Nat.lt_of_le_of_ne hcur hne⟩, hcrashed⟩
  case command hbusy halive i hd =>
    obtain ⟨hbuf, hcrash, hopc', -, -⟩ := perform_frame (commandOf i) i.size s
    obtain ⟨-, hle⟩ := fetchBytes_of_decode_ok hd
    refine ⟨hopc'.symm ▸ hopc, ?_, Memory.wf_perform hmem, statusFits_perform hbusy hd, fun hc => ?_⟩
    · obtain ⟨-, hcur'⟩ | ⟨-, hcur', -⟩ := perform_completes_or_fails (commandOf i) i.size s
      · exact hbuf.symm ▸ hcur'.symm ▸ hle
      · exact hbuf.symm ▸ hcur'.symm ▸ hcur
    · cases (hc.symm.trans hcrash).trans halive
  case start halive _ buffer =>
    exact ⟨hopc, Nat.zero_le _, hmem, trivial, fun hc => nomatch hc.symm.trans halive⟩
  case reset => exact ⟨hopc, Nat.le_refl _, Memory.wf_processReset s, ⟨rfl, rfl, rfl⟩, nofun⟩
  case crash halive inStep keep hlow hhigh =>
    refine ⟨hopc, hcur, ?_, hfits, fun _ => (List.length_take_of_le hhigh).symm⟩
    exact (Memory.wf_iff _).mpr ⟨all_take (crashTrace_ok hmem) keep, (List.length_take_of_le hhigh).ge⟩
  case close halive _ =>
    have hmem' := Memory.wf_sinkFlush hmem
    rw [sinkFlush_frame] at hmem' ⊢
    exact ⟨hopc, hcur, hmem', hfits, fun hc => nomatch hc.symm.trans halive⟩

/-- Taking a turn off the schedule keeps the state legal: the schedule is an input. -/
theorem State.Legal.popTurn {s : State} (hs : s.Legal) : (popTurn s).Legal :=
  ⟨hs.opcode, hs.cursor, hs.memory, hs.status, hs.crashed⟩

/-- Settles O43: every mover keeps the state legal. -/
theorem stepKeepsLegal : Obligations.StepKeepsLegal :=
  fun _ _ hs h => (moved_of_step h).legal hs.popTurn

/-- Settles O44: after reset everything is empty, and the state is as legal as its map. -/
theorem resetLegal : Obligations.ResetLegal := by
  have legal (opc : OpcodeMap) (sinkOk : SinkOracle) (turns : List Turn) (hw : opc.wellFormed = true) :
      (State.resetWith opc sinkOk turns).Legal :=
    ⟨hw, Nat.le_refl _, Memory.wf_reset opc sinkOk turns, ⟨rfl, rfl, rfl⟩, nofun⟩
  exact ⟨legal _ _ _ (by decide), legal⟩

/-! ### The log stays precise -/

/-- Only a sink-write failure leaves a command in the log beyond the cursor (60_exceptions.md R130). -/
theorem failedCommand_of_ne {s : State} (h : ∀ offset, s.status ≠ .error .sinkWriteFailure offset) :
    failedCommand s = [] := by
  unfold failedCommand
  split
  · rename_i hst
    exact absurd hst (h _)
  all_goals rfl

theorem failedCommand_of_decode_ok {s : State} {i : Instr} {offset : Nat}
    (hst : s.status = .error .sinkWriteFailure offset)
    (hd : decode s.opc (fetchBytes s) = .ok i) : failedCommand s = [i] := by
  simp [failedCommand, hst, hd]

/-- Decoding a command at the cursor adds its encoding to the bytes before the cursor (30_encoding.md R85). -/
theorem take_cur_add_size {s : State} {i : Instr} (hd : decode s.opc (fetchBytes s) = .ok i) :
    s.buf.take (s.cur + i.size) = s.buf.take s.cur ++ encode s.opc i := by
  obtain ⟨hfetch, -⟩ := fetchBytes_of_decode_ok hd
  rw [List.take_add, ← fetchBytes, hfetch, List.take_left' (encode_length s.opc i)]

/-- A command run from BUSY keeps the log precise: it goes before the cursor, or it is the failed one at the cursor. -/
theorem logIs_perform {s : State} {i : Instr} {is : List Instr} (hbusy : s.status = .busy)
    (hd : decode s.opc (fetchBytes s) = .ok i) (hs : LogIs s is) : (perform (commandOf i) i.size s).LogPrecise := by
  obtain ⟨hbytes, hlog⟩ := hs
  rw [failedCommand_of_ne (by simp [hbusy]), List.append_nil] at hlog
  obtain ⟨hbuf, -, hopc, -, hlog'⟩ := perform_frame (commandOf i) i.size s
  rw [hlog] at hlog'
  obtain ⟨hst, hcur⟩ | ⟨hst, hcur, -⟩ := perform_completes_or_fails (commandOf i) i.size s
  · refine ⟨is ++ [i], ?_, ?_⟩
    · rw [hbuf, hcur, hopc, take_cur_add_size hd, hbytes, List.flatMap_append, List.flatMap_singleton]
    · rw [failedCommand_of_ne (by simp [hst, hbusy]), hlog', List.append_nil, List.map_append]
      rfl
  · refine ⟨is, ?_, ?_⟩
    · rw [hbuf, hcur, hopc, hbytes]
    · have hd' : decode (perform (commandOf i) i.size s).opc (fetchBytes (perform (commandOf i) i.size s)) = .ok i := by
        rw [fetchBytes, hbuf, hcur, hopc, ← fetchBytes, hd]
      rw [failedCommand_of_decode_ok hst hd', hlog', List.map_append]
      rfl

/-- Every mover keeps the log precise. -/
theorem Moved.logPrecise {s t : State} {m : Turn} (h : Moved s m t) (hs : s.LogPrecise) : t.LogPrecise := by
  obtain ⟨is, hs⟩ := hs
  cases h
  case finish hbusy _ _ =>
    obtain ⟨hbytes, hlog⟩ := hs
    rw [failedCommand_of_ne (by simp [hbusy])] at hlog
    exact ⟨is, hbytes, hlog⟩
  case decodeError hbusy _ _ code hd =>
    obtain ⟨hbytes, hlog⟩ := hs
    rw [failedCommand_of_ne (by simp [hbusy])] at hlog
    have hcode : code ≠ .sinkWriteFailure := by
      rintro rfl
      exact decode_ne_sinkWriteFailure _ _ hd
    refine ⟨is, hbytes, ?_⟩
    rw [failedCommand_of_ne (by simp [hcode])]
    exact hlog
  case command hbusy _ i hd => exact logIs_perform hbusy hd hs
  case start | reset => exact ⟨[], rfl, rfl⟩
  case crash => exact ⟨is, hs⟩
  case close =>
    rw [sinkFlush_frame]
    exact ⟨is, hs⟩

/-- Settles O45: every mover keeps the log precise, in legal states and others. -/
theorem stepKeepsLogPrecise : Obligations.StepKeepsLogPrecise := by
  intro s t _ hs h
  have hpop : (popTurn s).LogPrecise := hs
  exact (moved_of_step h).logPrecise hpop

/-- Settles O46. -/
theorem resetLogPrecise : Obligations.ResetLogPrecise :=
  ⟨[], rfl, rfl⟩

/-! ### The sink stays the trace -/

/-- Without a sink-write failure nothing is cut (20_memory.md R57). -/
theorem traceSince_of_ne {s : State} {base : List Byte}
    (h : ∀ offset, s.status ≠ .error .sinkWriteFailure offset) :
    TraceSince base s ↔ s.sink = base ++ traceOf s.cmdLog := by
  unfold TraceSince
  split
  · rename_i hst
    exact absurd hst (h _)
  all_goals rfl

theorem traceOf_append (cmds cmds' : List Command) : traceOf (cmds ++ cmds') = traceOf cmds ++ traceOf cmds' :=
  List.flatMap_append

theorem traceOf_singleton (cmd : Command) : traceOf [cmd] = synth cmd :=
  List.flatMap_singleton ..

/-- A command run from BUSY adds its samples to the trace, or a front part of them with the failure (20_memory.md R57,
60_exceptions.md R130). -/
theorem traceSince_perform {s : State} {base : List Byte} {cmd : Command} (size : Nat) (hbusy : s.status = .busy)
    (hs : s.sink = base ++ traceOf s.cmdLog) : TraceSince base (perform cmd size s) := by
  obtain ⟨h0, he⟩ | ⟨-, he⟩ | ⟨j, -, -, he⟩ := perform_cases cmd size s <;> rw [he]
  · refine (traceSince_of_ne (by simp [hbusy])).mpr ?_
    rw [traceOf_append, traceOf_singleton, h0, List.append_nil]
    exact hs
  · refine (traceSince_of_ne (by simp [hbusy])).mpr ?_
    rw [traceOf_append, traceOf_singleton, ← List.append_assoc, hs]
  · exact ⟨s.cmdLog, cmd, j, rfl, congrArg (· ++ (synth cmd).take j) hs⟩

/-- The block and the final flush keep the trace of an invocation. -/
theorem Moved.traceSince {base : List Byte} {s t : State} {m : Turn} (h : Moved s m t) (hm : m = .block ∨ m = .close)
    (hs : TraceSince base s) : TraceSince base t := by
  cases h
  case finish hbusy _ _ => exact (traceSince_of_ne (s := s) (by simp [hbusy])).mp hs
  case decodeError hbusy _ _ code hd =>
    have hcode : code ≠ .sinkWriteFailure := by
      rintro rfl
      exact decode_ne_sinkWriteFailure _ _ hd
    have htrace := (traceSince_of_ne (by simp [hbusy])).mp hs
    exact (traceSince_of_ne (by simp [hcode])).mpr htrace
  case command hbusy _ i _ => exact traceSince_perform i.size hbusy ((traceSince_of_ne (by simp [hbusy])).mp hs)
  case start | reset | crash => simp at hm
  case close =>
    rw [sinkFlush_frame]
    exact hs

/-- Settles O47: the block and the flush keep the trace; a Start empties the log and leaves the sink, which is then the
base. -/
theorem stepKeepsTrace : Obligations.StepKeepsTrace := by
  refine ⟨fun base s t hs hm h => ?_, fun s t buffer hm h => ?_⟩
  · have hpop : TraceSince base (popTurn s) := hs
    exact (moved_of_step h).traceSince hm hpop
  · have hmoved := moved_of_step h
    rw [hm] at hmoved
    cases hmoved
    exact (List.append_nil _).symm

end Sys2Proof.Machine
end

section
/-! PROOFS. Whole invocations: they end, and without disturbance they log and trace the commands whose encodings the
buffer holds (30_encoding.md R85, 70_reset_and_hazards.md R162). -/

namespace Sys2Proof.Machine

/-! ### Runs -/

theorem stepN_one {s t : State} (h : step s = .next t) : stepN 1 s = .next t :=
  stepN_succ h

/-- A run that answers a state after `k + 1` steps took a first step. -/
theorem stepN_succ_eq_next {k : Nat} {s t : State} (h : stepN (k + 1) s = .next t) :
    ∃ u, step s = .next u ∧ stepN k u = .next t := by
  rw [stepN] at h
  split at h
  · exact ⟨_, ‹_›, h⟩
  all_goals cases h

theorem stepN_add {m : Nat} {s u : State} (h : stepN m s = .next u) (n : Nat) : stepN (m + n) s = stepN n u := by
  induction m generalizing s with
  | zero => rw [Nat.zero_add, Host.Outcome.next.inj h]
  | succ m ih =>
    obtain ⟨v, hv, hu⟩ := stepN_succ_eq_next h
    rw [Nat.succ_add, stepN_succ hv, ih hu]

/-- With no turn scheduled, nothing moves outside BUSY (10_state.md R35). -/
theorem eq_of_stepN_of_ne_busy {k : Nat} {s t : State} (hturns : s.turns = []) (hs : s.status ≠ .busy)
    (h : stepN k s = .next t) : t = s := by
  cases k with
  | zero => exact (Host.Outcome.next.inj h).symm
  | succ k =>
    obtain ⟨u, hu, -⟩ := stepN_succ_eq_next h
    obtain ⟨-, hblock⟩ := step_cases hu
    rw [nextTurn, hturns] at hblock
    obtain ⟨-, hbusy, -⟩ := blockStep_cases hblock
    exact absurd hbusy hs

/-! ### Termination -/

/-- An enabled step with the cursor within the buffer answers a next state (10_state.md R33). -/
theorem exists_step {s : State} (hs : BlockEnabled s) (hcur : s.cur ≤ s.buf.length) : ∃ t, step s = .next t := by
  cases hd : decode s.opc (fetchBytes s) with
  | ok i => exact ⟨_, step_of_decode_ok hs hd⟩
  | err code => exact ⟨_, step_of_decode_err hs hd⟩
  | noOpcode =>
    rw [decode_eq_noOpcode_iff, fetchBytes, List.drop_eq_nil_iff] at hd
    exact ⟨_, step_at_end hs (Nat.le_antisymm hcur hd)⟩

/-- A step of the block ends the invocation or leaves it BUSY. -/
theorem ended_or_busy {s t : State} (hs : BlockEnabled s) (h : step s = .next t) : Ended t ∨ t.status = .busy := by
  rw [step_block hs.opcode hs.turn] at h
  obtain ⟨-, hbusy, ⟨-, rfl⟩ | ⟨-, code, -, rfl⟩ | ⟨-, i, -, rfl⟩⟩ := blockStep_cases h
  · exact .inl (.inl rfl)
  · exact .inl (.inr ⟨code, _, rfl⟩)
  · obtain hst | hst := perform_status (commandOf i) i.size (popTurn s)
    · exact .inr (hst.trans hbusy)
    · exact .inl (.inr ⟨_, _, hst⟩)

/-- The block goes on after a step that leaves the invocation BUSY, on the same buffer. -/
theorem enabled_of_step_busy {s t : State} (hs : BlockEnabled s) (hturns : s.turns = []) (h : step s = .next t)
    (hbusy : t.status = .busy) : BlockEnabled t ∧ t.turns = [] ∧ t.buf = s.buf := by
  obtain ⟨i, -, rfl, -⟩ := command_of_step_busy hs h hbusy
  obtain ⟨hbuf, hcrashed, hopc, hturns', -⟩ := perform_frame (commandOf i) i.size (popTurn s)
  rw [popTurn_turns, hturns] at hturns'
  refine ⟨⟨hopc ▸ hs.opcode, ?_, hbusy, hcrashed.trans hs.alive⟩, hturns', hbuf⟩
  rw [nextTurn, hturns', List.tail_nil, List.headD_nil]

/-- Settles O48, by induction on the bytes left: each step ends the invocation or passes at least one byte. -/
theorem invocationEnds : Obligations.InvocationEnds := by
  intro s hs hturns hcur
  induction hn : s.buf.length - s.cur using Nat.strong_induction_on generalizing s with
  | _ n ih =>
    obtain ⟨t, hstep⟩ := exists_step hs hcur
    obtain hend | hbusy := ended_or_busy hs hstep
    · exact ⟨1, t, by omega, stepN_one hstep, hend⟩
    · obtain ⟨ht, htturns, hbuf⟩ := enabled_of_step_busy hs hturns hstep hbusy
      obtain ⟨-, -, -, hlt, hle⟩ := cursorMovesForward s t hs hstep hbusy
      rw [← hbuf] at hn
      obtain ⟨k, u, hk, hu, hend⟩ := ih (t.buf.length - t.cur) (by omega) t ht htturns hle rfl
      exact ⟨k + 1, u, by omega, (stepN_succ hstep).trans hu, hend⟩

/-! ### Undisturbed runs -/

/-- The undisturbed invocation has come from `s` to `t` by running the commands `is`. -/
structure Ran (s : State) (is : List Instr) (t : State) : Prop where
  undisturbed : Undisturbed t
  opc : t.opc = s.opc
  buf : t.buf = s.buf
  cur : t.cur = s.cur + (is.flatMap (encode s.opc)).length
  cmdLog : t.cmdLog = s.cmdLog ++ is.map commandOf
  sink : t.sink = s.sink ++ traceOf (is.map commandOf)
  flushed : is.any (fun i => emits i.kind) = true → t.durable = t.sink.length
  silent : is.any (fun i => emits i.kind) = false → t.durable = s.durable

theorem Ran.refl {s : State} (hs : Undisturbed s) : Ran s [] s :=
  ⟨hs, rfl, rfl, rfl, (List.append_nil _).symm, (List.append_nil _).symm, nofun, fun _ => rfl⟩

/-- Commands that emit nothing have no trace (20_memory.md R56). -/
theorem traceOf_silent {is : List Instr} (h : is.any (fun i => emits i.kind) = false) :
    traceOf (is.map commandOf) = [] := by
  simpa [traceOf, synth_commandOf_eq_nil_iff] using h

theorem Ran.trans {s u t : State} {is js : List Instr} (h : Ran s is u) (h' : Ran u js t) : Ran s (is ++ js) t where
  undisturbed := h'.undisturbed
  opc := h'.opc.trans h.opc
  buf := h'.buf.trans h.buf
  cur := by rw [h'.cur, h.cur, h.opc, List.flatMap_append, List.length_append, Nat.add_assoc]
  cmdLog := by rw [h'.cmdLog, h.cmdLog, List.map_append, List.append_assoc]
  sink := by rw [h'.sink, h.sink, List.map_append, traceOf_append, List.append_assoc]
  flushed hany := by
    cases hjs : js.any (fun i => emits i.kind) with
    | true => exact h'.flushed hjs
    | false =>
      rw [List.any_append, hjs, Bool.or_false] at hany
      rw [h'.silent hjs, h.flushed hany, h'.sink, traceOf_silent hjs, List.append_nil]
  silent hany := by
    obtain ⟨his, hjs⟩ := Bool.or_eq_false_iff.mp (List.any_append ▸ hany)
    rw [h'.silent hjs, h.silent his]

/-- A step that leaves the map, the status and `crashed` as they are, and only successes to come, leaves an invocation
undisturbed. -/
theorem Undisturbed.of_frame {s t : State} (hs : Undisturbed s) (hopc : t.opc = s.opc) (hturns : t.turns = s.turns.tail)
    (hstatus : t.status = s.status) (hcrashed : t.crashed = s.crashed)
    (hgranted : ∀ n, oracleAnswer t.sinkOk n = true) : Undisturbed t := by
  rw [hs.turns, List.tail_nil] at hturns
  refine ⟨⟨hopc ▸ hs.enabled.opcode, ?_, hstatus.trans hs.enabled.busy, hcrashed.trans hs.enabled.alive⟩,
    hturns, hgranted⟩
  rw [nextTurn, hturns, List.headD_nil]

/-- An undisturbed step with a command at the cursor runs it to its end (10_state.md R33). -/
theorem ran_command {s : State} {i : Instr} (hs : Undisturbed s) (hd : decode s.opc (fetchBytes s) = .ok i) :
    ∃ t, step s = .next t ∧ Ran s [i] t := by
  have hstep := step_of_decode_ok hs.enabled hd
  have hlen : s.cur + i.size = s.cur + ([i].flatMap (encode s.opc)).length := by
    rw [List.flatMap_singleton, encode_length]
  have htrace : traceOf ([i].map commandOf) = synth (commandOf i) := traceOf_singleton _
  have hany : [i].any (fun i => emits i.kind) = emits i.kind := Bool.or_false _
  cases hi : emits i.kind with
  | false =>
    have hnil := (synth_commandOf_eq_nil_iff i).mpr hi
    rw [perform_silent i.size (popTurn s) hnil] at hstep
    refine ⟨_, hstep, hs.of_frame rfl rfl rfl rfl hs.granted, rfl, rfl, hlen, rfl, ?_, fun h => ?_, fun _ => rfl⟩
    · rw [htrace, hnil, List.append_nil]
      rfl
    · rw [hany, hi] at h
      cases h
  | true =>
    have hne : synth (commandOf i) ≠ [] := by simp [synth_commandOf_eq_nil_iff, hi]
    rw [perform_granted i.size (popTurn s) hne fun j _ => hs.granted j] at hstep
    refine ⟨_, hstep, hs.of_frame rfl rfl rfl rfl fun n => ?_, rfl, rfl, hlen, rfl, ?_, fun _ => rfl, fun h => ?_⟩
    · exact (oracleAnswer_skip _ _ _).trans (hs.granted _)
    · rw [htrace]
      rfl
    · rw [hany, hi] at h
      cases h

/-- After the commands `is`, the bytes to come are those after their encodings. -/
theorem Ran.fetchBytes_eq {s t : State} {is : List Instr} {rest : List Byte} (h : Ran s is t)
    (hbytes : fetchBytes s = is.flatMap (encode s.opc) ++ rest) : fetchBytes t = rest := by
  rw [fetchBytes, h.buf, h.cur, ← List.drop_drop, ← fetchBytes, hbytes, List.drop_left]

/-- An undisturbed invocation runs the commands whose encodings stand at the cursor, one step each, by induction on the
commands (30_encoding.md R85). -/
theorem ran_encodings {s : State} {is : List Instr} {rest : List Byte} (hs : Undisturbed s)
    (hbytes : fetchBytes s = is.flatMap (encode s.opc) ++ rest) : ∃ t, stepN is.length s = .next t ∧ Ran s is t := by
  induction is generalizing s with
  | nil => exact ⟨s, rfl, .refl hs⟩
  | cons i is ih =>
    rw [List.flatMap_cons, List.append_assoc] at hbytes
    have hd : decode s.opc (fetchBytes s) = .ok i := hbytes ▸ decodeEncode s.opc i _ hs.enabled.opcode
    obtain ⟨u, hstep, hran⟩ := ran_command hs hd
    have hrest : fetchBytes u = is.flatMap (encode u.opc) ++ rest := by
      rw [hran.opc]
      exact hran.fetchBytes_eq (by rw [List.flatMap_singleton, hbytes])
    obtain ⟨t, hrun, hran'⟩ := ih hran.undisturbed hrest
    exact ⟨t, (stepN_succ hstep).trans hrun, hran.trans hran'⟩

theorem fetchBytes_of_cur_zero {s : State} (hcur : s.cur = 0) : fetchBytes s = s.buf := by
  rw [fetchBytes, hcur, List.drop_zero]

/-- An undisturbed invocation on the encodings of `is` runs them all and then makes the status DONE. -/
theorem done_of_encodings {s : State} {is : List Instr} (hs : Undisturbed s) (hcur : s.cur = 0)
    (hbuf : s.buf = is.flatMap (encode s.opc)) :
    ∃ t, Ran s is t ∧ t.cur = s.buf.length ∧ stepN (is.length + 1) s = .next { popTurn t with status := .done } := by
  obtain ⟨t, hrun, hran⟩ := ran_encodings (rest := []) hs (by rw [fetchBytes_of_cur_zero hcur, List.append_nil, hbuf])
  have hend : t.cur = s.buf.length := by rw [hran.cur, hcur, Nat.zero_add, ← hbuf]
  refine ⟨t, hran, hend, (stepN_add hrun 1).trans (stepN_one ?_)⟩
  exact step_at_end hran.undisturbed.enabled (hend.trans (congrArg List.length hran.buf.symm))

/-- Settles O49. -/
theorem cleanInvocation : Obligations.CleanInvocation := by
  intro s is hs hcur hlog hbuf
  obtain ⟨t, hran, hend, hrun⟩ := done_of_encodings hs hcur hbuf
  have hlog' := hran.cmdLog
  rw [hlog, List.nil_append] at hlog'
  exact ⟨_, hrun, rfl, hend, hlog', hran.sink, hran.flushed, hran.silent⟩

/-- An undisturbed invocation that comes to DONE had only encodings to come, by induction on its steps. -/
theorem encodings_of_done {k : Nat} {s t : State} (hs : Undisturbed s) (h : stepN k s = .next t)
    (hdone : t.status = .done) :
    ∃ is : List Instr, fetchBytes s = is.flatMap (encode s.opc) := by
  induction k generalizing s with
  | zero =>
    obtain rfl := Host.Outcome.next.inj h
    cases hs.enabled.busy.symm.trans hdone
  | succ k ih =>
    obtain ⟨u, hstep, hrun⟩ := stepN_succ_eq_next h
    cases hd : decode s.opc (fetchBytes s) with
    | noOpcode => exact ⟨[], (decode_eq_noOpcode_iff _ _).mp hd⟩
    | err code =>
      obtain rfl := Host.Outcome.next.inj (hstep.symm.trans (step_of_decode_err hs.enabled hd))
      have hturns : (raiseError code (popTurn s)).turns = [] := congrArg List.tail hs.turns
      obtain rfl := eq_of_stepN_of_ne_busy hturns nofun hrun
      cases hdone
    | ok i =>
      obtain ⟨u', hstep', hran⟩ := ran_command hs hd
      obtain rfl := Host.Outcome.next.inj (hstep.symm.trans hstep')
      obtain ⟨is, his⟩ := ih hran.undisturbed hrun
      obtain ⟨rest, hrest⟩ := encodeDecode _ _ _ hd
      have hfetch : fetchBytes u = rest := hran.fetchBytes_eq (by rw [List.flatMap_singleton, hrest])
      refine ⟨i :: is, ?_⟩
      rw [List.flatMap_cons, hrest, ← hfetch, his, hran.opc]

/-- Settles O50. -/
theorem cleanExactlyConcatenations : Obligations.CleanExactlyConcatenations := by
  refine fun s hs hcur => ⟨fun ⟨k, t, hrun, hdone⟩ => ?_, fun ⟨is, hbuf⟩ => ?_⟩
  · exact fetchBytes_of_cur_zero hcur ▸ encodings_of_done hs hrun hdone
  · obtain ⟨t, -, -, hrun⟩ := done_of_encodings hs hcur hbuf
    exact ⟨_, _, hrun, rfl⟩

/-- A command without its last operand byte is truncated input (60_exceptions.md R129, 90_conflicts.md C6). -/
theorem decode_dropLast {opc : OpcodeMap} (hw : opc.wellFormed = true) {i : Instr} (hi : 1 < i.size) :
    decode opc (encode opc i).dropLast = .err .truncatedInput := by
  have hcons : (encode opc i).dropLast = opc.byte i.kind :: i.operandBytes.dropLast := by
    refine List.dropLast_cons_of_ne_nil fun hnil => ?_
    have hlen := encode_length opc i
    rw [encode, hnil, List.length_singleton] at hlen
    omega
  rw [hcons, decode_byte_cons hw]
  cases i
  case setAdBus | clockByteOut | clockByteIn | clockBitOut | setDivisor => rfl
  case readStatus | disableLoopback | sendImmediate => exact absurd hi (by decide)

/-- Settles O51: the whole commands run, and what is left of the last one is truncated input. -/
theorem truncationIsReported : Obligations.TruncationIsReported := by
  intro s is i hs hcur hlog hi hbuf
  have hbytes := (fetchBytes_of_cur_zero hcur).trans hbuf
  obtain ⟨t, hrun, hran⟩ := ran_encodings hs hbytes
  have hd : decode t.opc (fetchBytes t) = .err .truncatedInput := by
    rw [hran.fetchBytes_eq hbytes, hran.opc]
    exact decode_dropLast hs.enabled.opcode hi
  have herr := step_of_decode_err hran.undisturbed.enabled hd
  have hcur' := hran.cur
  have hlog' := hran.cmdLog
  rw [hcur, Nat.zero_add] at hcur'
  rw [hlog, List.nil_append] at hlog'
  exact ⟨_, (stepN_add hrun 1).trans (stepN_one herr), congrArg _ hcur', hlog', hran.sink⟩

end Sys2Proof.Machine
end
